-- ==== Sys2Proof/Word.lean ====
section
/-! DEFINITION. The plain bit-vector types of the block: bytes, 32-bit bus words and offsets, 36-bit
request keys (spec/00_scope.md R5 and R8, spec/30_encoding.md R50 and R53). -/

namespace Sys2Proof

/-- A data byte, `DATA_WIDTH` = 8 bits (R5). -/
abbrev Byte := BitVec 8

/-- A bus value: 32 bits, unsigned (R50). It also holds an offset, zero-extended to 32 bits (R53). -/
abbrev Word := BitVec 32

/-- A request key: 36 bits (R53). -/
abbrev Key := BitVec 36

end Sys2Proof
end

