-- ==== Sys2Proof/Config.lean ====
section
/-! DEFINITION. The named parameters of the block (spec/00_scope.md R5 and R6): what the source fixes,
what the spec decides, and the platform's open parameters. -/

namespace Sys2Proof.Config

/-- `FIFO_CAPACITY`: the most bytes the Receive FIFO holds (R5). Log entry 26 (UNVERIFIED): no
numeric literal of the source was audited. -/
def fifoCapacity : Nat := 16

/-- `OFF_DATA` (R5). -/
def offData : Word := 0x00#32

/-- `OFF_STATUS` (R5). -/
def offStatus : Word := 0x04#32

/-- `OFF_CONTROL` (R5). -/
def offControl : Word := 0x08#32

/-- The bit of `STATUS.TX_READY` (R5). -/
def txReadyBit : Nat := 0

/-- The bit of `STATUS.RX_AVAIL` (R5). -/
def rxAvailBit : Nat := 1

/-- The bit of `CONTROL.TX_EN` (R5). -/
def txEnBit : Nat := 0

/-- The bit of `CONTROL.RX_EN` (R5). -/
def rxEnBit : Nat := 1

/-- The bit of `CONTROL.TX_INT_EN` (R5). -/
def txIntEnBit : Nat := 2

/-- The bit of `CONTROL.RX_INT_EN` (R5). -/
def rxIntEnBit : Nat := 3

/-- `MIN_ACCESS`: the narrowest access, in bytes (R5). -/
def minAccess : Nat := 1

/-- `MAX_ACCESS`: the widest access, in bytes (R5). With `MIN_ACCESS` it gives `SIZE_SET` (R6, decision D5). -/
def maxAccess : Nat := 4

/-- `CONTROL_MASK`: "only bits 3:0 of CONTROL are stored" (R6, decision D8). Log entry 14. -/
def controlMask : Word := 0xF#32

/-- The three values R6 names for `DATA_WRITE_LATCH`: when a DATA write updates the DATA register. -/
inductive DataWriteLatch where
  | never
  | txEnabled
  | always
  deriving DecidableEq, Repr

/-- `DATA_WRITE_LATCH`: decided `tx_enabled` by the spec (R6, decision D9). Log entry 15. -/
def dataWriteLatch : DataWriteLatch := .txEnabled

/-- `LOG_OVERRUN`: decided false by the spec (R6, decision D13). Log entry 19. -/
def logOverrun : Bool := false

/-- The orders in which a framework can place the bytes of a guest access in a transaction's `value`: the source says only
"host-native byte order" (R33). Log entry 36 (PRESUMED): the spec does not list the values of `BYTE_ORDER`. -/
inductive ByteOrder where
  | little
  | big
  deriving DecidableEq, Repr

/-- The five open parameters of the platform (R6, decisions D4 and D7): no rule of the block reads them, and they are
an argument of the software-side functions of `Machine/Software.lean` only. -/
structure Platform where
  /-- `BASE`: any address. -/
  base : Nat
  /-- `WINDOW_SIZE`: at least 0x10. -/
  windowSize : Nat
  /-- `OFFSET_WIDTH`: 4 to 32 bits. -/
  offsetWidth : Nat
  /-- `IRQ_NUMBER`: which input of the host's interrupt controller the line is wired to, "not used by any rule". -/
  irqNumber : Nat
  /-- `BYTE_ORDER`: "not used by any rule"; transactions carry integer values (R33). -/
  byteOrder : ByteOrder
  deriving DecidableEq, Repr

/-- The constraints R6 puts on the platform's parameters (none on `BASE`, `IRQ_NUMBER` and `BYTE_ORDER`). The last conjunct, that every offset of the
window has `OFFSET_WIDTH` bits, is read from R30 and R31 by inference (log entry 28, DEDUCED). -/
abbrev Platform.valid (p : Platform) : Prop :=
  0x10 ≤ p.windowSize ∧ 4 ≤ p.offsetWidth ∧ p.offsetWidth ≤ 32 ∧ p.windowSize ≤ 2 ^ p.offsetWidth

end Sys2Proof.Config
end

