-- ==== Sys2Proof/Syntax.lean ====
section
/-! DEFINITION. The requests that arrive on the ports (spec/10_state.md R20, spec/30_encoding.md R50, R51),
the raw form of a request with its 36-bit key (R53), and the operations of the block: one constructor
of `Instr` for each row of spec/opcode_table.json (R55). -/

namespace Sys2Proof

/-- The port a request arrives on: the port selector of R53. `internal` is no port of the block: it
stands for the calls one operation makes to another (R51; log entry 6). -/
inductive Port where
  | bus
  | backend
  | host
  | internal
  deriving DecidableEq, Repr

/-- A request of the bus master (format BUS, R50). `value` is present only when the direction is W. -/
inductive BusRequest where
  /-- `BusRead(offset, size)`. -/
  | read (offset : Word) (size : Nat)
  /-- `BusWrite(offset, size, value)`. -/
  | write (offset : Word) (size : Nat) (value : Word)
  /-- An instruction fetch from the window: "not an operation of the block" (R45, decision D19). -/
  | fetch (offset : Word) (size : Nat)
  deriving DecidableEq, Repr

/-- A request of the backend channel (format BACKEND, R51, R22). -/
inductive BackendRequest where
  /-- `capacity_available()`. -/
  | canAccept
  /-- `on_receive(bytes)`, with any number of bytes. -/
  | deposit (bytes : List Byte)
  deriving DecidableEq, Repr

/-- A request of the host (format HOST, R51, R24). -/
inductive HostRequest where
  | reset
  deriving DecidableEq, Repr

/-- A call of an internal primitive (format INTERNAL, R51): no agent can request one. -/
inductive InternalCall where
  | popFront
  | writeData (b : Byte)
  | raise
  | lower
  deriving DecidableEq, Repr

/-- A request together with the port it arrives on. -/
inductive PortRequest where
  | bus (r : BusRequest)
  | backend (r : BackendRequest)
  | host (r : HostRequest)
  | internal (r : InternalCall)
  deriving DecidableEq, Repr

/-- The raw form of a request: the key of R53 and, beside it, the operands the key does not hold
("not in key", opcode_table.json). An operation reads only the operands its format has. -/
structure Request where
  key : Key
  /-- The access width of a bus transaction, in bytes. -/
  size : Nat
  /-- The value of a bus write. -/
  value : Word
  /-- The bytes of a DEPOSIT. -/
  bytes : List Byte
  /-- The byte of a WRITE_DATA. -/
  byte : Byte
  deriving DecidableEq, Repr

/-- The names of the 15 operations (R55), without operands. -/
inductive Op where
  | rdData
  | rdStatus
  | rdControl
  | rdInvalid
  | wrData
  | wrStatus
  | wrControl
  | wrInvalid
  | canAccept
  | deposit
  | reset
  | popFront
  | writeData
  | raise
  | lower
  deriving DecidableEq, Repr

/-- The operations of the block with their operands (R55): "one *operation* of the block; 15 in all:
8 bus operations, 2 backend operations, 1 host operation, 4 internal primitives" (R7). -/
inductive Instr where
  /-- RD_DATA (R71). -/
  | rdData (size : Nat)
  /-- RD_STATUS (R72). -/
  | rdStatus (size : Nat)
  /-- RD_CONTROL (R73). -/
  | rdControl (size : Nat)
  /-- RD_INVALID (R74). -/
  | rdInvalid (offset : Word) (size : Nat)
  /-- WR_DATA (R75). -/
  | wrData (size : Nat) (value : Word)
  /-- WR_STATUS (R76). -/
  | wrStatus (size : Nat) (value : Word)
  /-- WR_CONTROL (R77). -/
  | wrControl (size : Nat) (value : Word)
  /-- WR_INVALID (R78). -/
  | wrInvalid (offset : Word) (size : Nat) (value : Word)
  /-- CAN_ACCEPT (R90). -/
  | canAccept
  /-- DEPOSIT (R91). -/
  | deposit (bytes : List Byte)
  /-- RESET (R135). -/
  | reset
  /-- POP_FRONT (R93). -/
  | popFront
  /-- WRITE_DATA (R100). -/
  | writeData (b : Byte)
  /-- RAISE (R105). -/
  | raise
  /-- LOWER (R106). -/
  | lower
  deriving DecidableEq, Repr

end Sys2Proof
end

