-- ==== Sys2Proof/WellFormed.lean ====
section
/-! DEFINITION. Which operations with which operands the spec gives a meaning to: the access size is one of
1, 2, 3, 4 (spec/20_memory.md R35), and the two invalid-address operations name an offset that is none of the three
registers' (spec/30_encoding.md R54). -/

namespace Sys2Proof

/-- `size` is in `SIZE_SET` = {1, 2, 3, 4} (R6, R35; decision D5, log entry 12). -/
def legalSize (size : Nat) : Bool :=
  decide (Config.minAccess ≤ size ∧ size ≤ Config.maxAccess)

/-- `offset` is one of "the three register addresses" (R34). -/
def isRegisterOffset (offset : Word) : Bool :=
  offset == Config.offData || offset == Config.offStatus || offset == Config.offControl

/-- The operation's operands are in the domains of R50, R51 and R54. A DEPOSIT takes "any length including 0",
and a written value is any 32-bit value (decision D6, log entry 13). -/
def Instr.wellFormed : Instr → Bool
  | .rdData size => legalSize size
  | .rdStatus size => legalSize size
  | .rdControl size => legalSize size
  | .rdInvalid offset size => !isRegisterOffset offset && legalSize size
  | .wrData size _ => legalSize size
  | .wrStatus size _ => legalSize size
  | .wrControl size _ => legalSize size
  | .wrInvalid offset size _ => !isRegisterOffset offset && legalSize size
  | .canAccept => true
  | .deposit _ => true
  | .reset => true
  | .popFront => true
  | .writeData _ => true
  | .raise => true
  | .lower => true

end Sys2Proof
end

