-- ==== Sys2Proof/Decode.lean ====
section
/-! DEFINITION. The decode (spec/30_encoding.md R53 to R55): the request keys, the rows of the decode table, the decoder of a
raw request and of a request on a port, each total and rejecting by name; then the encoders. -/

namespace Sys2Proof

/-- Why a request selects no operation. -/
inductive DecodeError where
  /-- No row of the decode table selects the key: a label key outside R53's list (log entry 25). -/
  | noSuchOperation
  /-- A bus transaction with a size other than 1, 2, 3, 4 (R35, R57). -/
  | illegalSize
  /-- An instruction fetch from the window (R45). -/
  | instructionFetch
  deriving DecidableEq, Repr

/-- The key of a bus transaction: "numerically `dir·2^32 + offset`", port selector 0 (R53). -/
def busKey (isWrite : Bool) (offset : Word) : Key :=
  (if isWrite then 1#4 else 0#4) ++ offset

/-- A row of the decode table: it selects a request when `(key AND mask) = pattern` (R53). -/
structure DecodeRow where
  op : Op
  pattern : Key
  mask : Key
  deriving DecidableEq, Repr

/-- "The thirteen rows whose mask is 0xFFFFFFFFF are exact" (R53, R54; opcode_table.json). -/
def exactRows : List DecodeRow :=
  [ ⟨.rdData, 0x000000000#36, 0xFFFFFFFFF#36⟩,
    ⟨.rdStatus, 0x000000004#36, 0xFFFFFFFFF#36⟩,
    ⟨.rdControl, 0x000000008#36, 0xFFFFFFFFF#36⟩,
    ⟨.wrData, 0x100000000#36, 0xFFFFFFFFF#36⟩,
    ⟨.wrStatus, 0x100000004#36, 0xFFFFFFFFF#36⟩,
    ⟨.wrControl, 0x100000008#36, 0xFFFFFFFFF#36⟩,
    ⟨.canAccept, 0x200000000#36, 0xFFFFFFFFF#36⟩,
    ⟨.deposit, 0x200000001#36, 0xFFFFFFFFF#36⟩,
    ⟨.reset, 0x400000000#36, 0xFFFFFFFFF#36⟩,
    ⟨.popFront, 0x600000000#36, 0xFFFFFFFFF#36⟩,
    ⟨.writeData, 0x600000001#36, 0xFFFFFFFFF#36⟩,
    ⟨.raise, 0x600000002#36, 0xFFFFFFFFF#36⟩,
    ⟨.lower, 0x600000003#36, 0xFFFFFFFFF#36⟩ ]

/-- "The two rows whose mask is 0xF00000000 … are fallbacks and select a transaction only when no exact
row does" (R53). -/
def fallbackRows : List DecodeRow :=
  [ ⟨.rdInvalid, 0x000000000#36, 0xF00000000#36⟩,
    ⟨.wrInvalid, 0x100000000#36, 0xF00000000#36⟩ ]

/-- Does the row select the key (R53)? -/
def DecodeRow.selects (r : DecodeRow) (key : Key) : Bool :=
  (key &&& r.mask) == r.pattern

/-- The operation a key selects: an exact row, or else a fallback row (R53). -/
def selectOp (key : Key) : Option Op :=
  match exactRows.find? (fun r => r.selects key) with
  | some r => some r.op
  | none => (fallbackRows.find? (fun r => r.selects key)).map DecodeRow.op

/-- A bus operation of a transaction whose size is legal; any other size is refused (R35, R57). -/
def withLegalSize (size : Nat) (i : Instr) : Except DecodeError Instr :=
  if legalSize size then .ok i else .error .illegalSize

/-- The operation with the operands taken from the request (R50, R51); the offset of an invalid-address
operation is `key[31:0]` (R53). -/
def assemble (op : Op) (r : Request) : Except DecodeError Instr :=
  match op with
  | .rdData => withLegalSize r.size (.rdData r.size)
  | .rdStatus => withLegalSize r.size (.rdStatus r.size)
  | .rdControl => withLegalSize r.size (.rdControl r.size)
  | .rdInvalid => withLegalSize r.size (.rdInvalid (r.key.setWidth 32) r.size)
  | .wrData => withLegalSize r.size (.wrData r.size r.value)
  | .wrStatus => withLegalSize r.size (.wrStatus r.size r.value)
  | .wrControl => withLegalSize r.size (.wrControl r.size r.value)
  | .wrInvalid => withLegalSize r.size (.wrInvalid (r.key.setWidth 32) r.size r.value)
  | .canAccept => .ok .canAccept
  | .deposit => .ok (.deposit r.bytes)
  | .reset => .ok .reset
  | .popFront => .ok .popFront
  | .writeData => .ok (.writeData r.byte)
  | .raise => .ok .raise
  | .lower => .ok .lower

/-- The decoder of a raw request: total, and every request without a meaning is rejected by name. -/
def decode (r : Request) : Except DecodeError Instr :=
  match selectOp r.key with
  | some op => assemble op r
  | none => .error .noSuchOperation

/-- A raw request without operands but for an access size. -/
def keyRequest (key : Key) (size : Nat) : Request :=
  { key := key, size := size, value := 0#32, bytes := [], byte := 0#8 }

/-- The decoder of a request on a port. On the bus port the key of the transaction selects the operation
(R53, R54); on the others "the port a request arrives on selects the operation" (R51, R53), and no key
is looked at. -/
def decodePort : PortRequest → Except DecodeError Instr
  | .bus (.read offset size) => decode (keyRequest (busKey false offset) size)
  | .bus (.write offset size value) =>
    decode { keyRequest (busKey true offset) size with value := value }
  | .bus (.fetch _ _) => .error .instructionFetch
  | .backend .canAccept => .ok .canAccept
  | .backend (.deposit bytes) => .ok (.deposit bytes)
  | .host .reset => .ok .reset
  | .internal .popFront => .ok .popFront
  | .internal (.writeData b) => .ok (.writeData b)
  | .internal .raise => .ok .raise
  | .internal .lower => .ok .lower

/-- The access size of a table word, which holds none: "`.size` may be omitted and then means `.4`"
(R59; log entry 24, DESIGN CHOICE). -/
def omittedSize : Nat := 4

/-- The operation the decoder reads from a word of opcode_table.json: the key of R53 in bits 35 to 0. The
operands, which the table gives no bits, are the omitted size 4, value 0 and no bytes (log entry 24). -/
def decodeTableWord (nbits w : Nat) : Option Instr :=
  if w % 2 ^ nbits < 2 ^ 36 then
    match decode (keyRequest (BitVec.ofNat 36 (w % 2 ^ nbits)) omittedSize) with
    | .ok i => some i
    | .error _ => none
  else none

/-- The encoder: the raw request that stands for an operation, its key by R53 and R54. -/
def encode : Instr → Request
  | .rdData size => keyRequest (busKey false Config.offData) size
  | .rdStatus size => keyRequest (busKey false Config.offStatus) size
  | .rdControl size => keyRequest (busKey false Config.offControl) size
  | .rdInvalid offset size => keyRequest (busKey false offset) size
  | .wrData size value => { keyRequest (busKey true Config.offData) size with value := value }
  | .wrStatus size value => { keyRequest (busKey true Config.offStatus) size with value := value }
  | .wrControl size value => { keyRequest (busKey true Config.offControl) size with value := value }
  | .wrInvalid offset size value => { keyRequest (busKey true offset) size with value := value }
  | .canAccept => keyRequest 0x200000000#36 0
  | .deposit bytes => { keyRequest 0x200000001#36 0 with bytes := bytes }
  | .reset => keyRequest 0x400000000#36 0
  | .popFront => keyRequest 0x600000000#36 0
  | .writeData b => { keyRequest 0x600000001#36 0 with byte := b }
  | .raise => keyRequest 0x600000002#36 0
  | .lower => keyRequest 0x600000003#36 0

/-- The request on a port that asks for the operation (R55's columns "format" and "source contract"). -/
def portRequestOf : Instr → PortRequest
  | .rdData size => .bus (.read Config.offData size)
  | .rdStatus size => .bus (.read Config.offStatus size)
  | .rdControl size => .bus (.read Config.offControl size)
  | .rdInvalid offset size => .bus (.read offset size)
  | .wrData size value => .bus (.write Config.offData size value)
  | .wrStatus size value => .bus (.write Config.offStatus size value)
  | .wrControl size value => .bus (.write Config.offControl size value)
  | .wrInvalid offset size value => .bus (.write offset size value)
  | .canAccept => .backend .canAccept
  | .deposit bytes => .backend (.deposit bytes)
  | .reset => .host .reset
  | .popFront => .internal .popFront
  | .writeData b => .internal (.writeData b)
  | .raise => .internal .raise
  | .lower => .internal .lower

end Sys2Proof
end

