-- ==== Sys2Proof/Machine/State.lean ====
section
/-! DEFINITION. The state of the machine as plain data: PeripheralState (spec/10_state.md R10 to R16), the block's outputs
(R25) and the agents' pending inputs (R20 to R24), the launch state, and the named ways a step can stop. -/

namespace Sys2Proof.Machine

/-- The reasons a step ends in a fault. THERE ARE NONE: "Nothing in the block faults" (R115), so the
type has no constructor and no operation can answer with a fault. Safe or unsafe: log entry 27. -/
inductive Fault where
  deriving DecidableEq, Repr

/-- The reasons a step is refused: requests to which the spec gives no meaning (R9, "Refused"). -/
inductive Refusal where
  /-- An operation whose meaning is not written yet. Raised by no arm of `exec`. Safe. -/
  | notModelled (mnemonic : String)
  /-- Raised by every operation but RESET in phase UNINITIALIZED: "refused: the spec gives it no meaning"
  (R16, R137; decision D12). Safe: the machine stops where nothing is specified. -/
  | beforeFirstReset
  /-- Raised by the bus port and by the eight bus operations at a size other than 1, 2, 3, 4: "a transaction
  with any other size is refused" (R35; decision D5). Safe. -/
  | illegalSize
  /-- Raised by the bus port on an instruction fetch: "A model refuses it" (R45; decision D19). Safe. -/
  | instructionFetch
  /-- The name of a key outside the decode table. Raised by no request on a port. Safe. -/
  | noSuchOperation
  deriving DecidableEq, Repr

/-- The lifecycle phases (R16). -/
inductive Phase where
  /-- Before the first reset: "every other field holds no value". -/
  | uninitialized
  /-- "From the first reset on, for ever". -/
  | operating
  deriving DecidableEq, Repr

/-- PeripheralState, "exactly one state record, … written `S` in every rule" (R10). -/
structure PeripheralState where
  /-- `S.data`: the DATA register, the last latched byte (R11). -/
  data : Byte
  /-- `S.status`: the STATUS register, bit 0 TX_READY, bit 1 RX_AVAIL (R12). -/
  status : BitVec 2
  /-- `S.control`: the CONTROL register, TX_EN, RX_EN, TX_INT_EN, RX_INT_EN from bit 0 up (R13). -/
  control : BitVec 4
  /-- `S.rx_fifo`: the Receive FIFO, front first (R14). -/
  rxFifo : List Byte
  /-- `S.irq_level`: the level of the interrupt line (R15). -/
  irqLevel : Bool
  /-- `S.phase`: the lifecycle phase (R16). -/
  phase : Phase
  deriving DecidableEq, Repr

/-- An event on `irq_out` (R24, R25). -/
inductive IrqEvent where
  | raise
  | lower
  deriving DecidableEq, Repr

/-- The kinds of diagnostic events (R8, R116). -/
inductive DiagKind where
  | invalidAddress
  | invalidWriteTarget
  | fifoOverrun
  deriving DecidableEq, Repr

/-- The information of a diagnostic event (R115, last column). -/
inductive DiagInfo where
  /-- A read: direction R, offset and size. -/
  | readAccess (offset : Word) (size : Nat)
  /-- A write: direction W, offset, size and value. -/
  | writeAccess (offset : Word) (size : Nat) (value : Word)
  /-- The number of bytes an overrun lost. -/
  | lostBytes (count : Nat)
  deriving DecidableEq, Repr

/-- `Diag(kind, info)` (R116). -/
structure DiagEvent where
  kind : DiagKind
  info : DiagInfo
  deriving DecidableEq, Repr

/-- The answer of a bus transaction (R21): a read returns `8·size` bits, kept zero-extended beside its size (log
entry 33), a write returns `()`. -/
inductive BusReply where
  | value (size : Nat) (v : Word)
  | done
  deriving DecidableEq, Repr

/-- What the block has emitted: "parameters or outputs of the step relation, not state of the block" (R18), kept as
ghost state, as R25 allows. No operation reads them, and RESET does not clear them (R25). Oldest first. -/
structure Outputs where
  /-- `tx_out`: the bytes offered to the backend, one `Tx(b)` each (R23). -/
  tx : List Byte
  /-- `irq_out`: the requests sent on the interrupt line (R24). -/
  irq : List IrqEvent
  /-- `diag_out`: the diagnostic events (R25, R116). -/
  diag : List DiagEvent
  /-- The answers of the bus transactions (R21; log entry 8). -/
  busReplies : List BusReply
  /-- The counts CAN_ACCEPT and DEPOSIT returned (R22; log entry 8). -/
  backendReplies : List Nat
  /-- What POP_FRONT yielded when it was run as an operation of its own (log entry 7). -/
  internalReplies : List (Option Byte)
  deriving DecidableEq, Repr

/-- What the agents still have to ask of the block, each agent's requests in its own order (R41), and which port
is served next. -/
structure Inputs where
  /-- The bus master's transactions, next first (R21, R41). -/
  busQueue : List BusRequest
  /-- The backend channel's requests, next first (R22, R41). -/
  backendQueue : List BackendRequest
  /-- The host's reset requests (R24, R41). -/
  hostQueue : List HostRequest
  /-- Internal calls to be run as operations of their own; no agent can fill it (R51; log entry 6). -/
  internalQueue : List InternalCall
  /-- Which port is served at the next steps, when several wait: any order (R41, decision D17; log entry 4). -/
  schedule : List Port
  /-- What the backend's `write_bytes` will return: an unconstrained answer that nothing reads (R23, R120, U3; log
  entry 21). -/
  backendAnswers : List Nat
  deriving DecidableEq, Repr

/-- The machine: the block, its outputs and the agents' pending inputs. -/
structure State where
  /-- PeripheralState, `S` (R10). -/
  block : PeripheralState
  /-- The output traces and answers (R25). -/
  out : Outputs
  /-- The requests the agents have yet to make (R20). -/
  inp : Inputs
  deriving DecidableEq, Repr

/-- No request pending on any port. -/
def Inputs.empty : Inputs :=
  { busQueue := [], backendQueue := [], hostQueue := [], internalQueue := [], schedule := [],
    backendAnswers := [] }

/-- The attached block before its first reset (R138 step 1): phase UNINITIALIZED. "Every other field holds no value"
(R16): the zeros are placeholders that no operation reads (log entry 10, DESIGN CHOICE). -/
def State.attached : State :=
  { block :=
      { data := 0#8, status := 0#2, control := 0#4, rxFifo := [], irqLevel := false,
        phase := .uninitialized }
    out := { tx := [], irq := [], diag := [], busReplies := [], backendReplies := [], internalReplies := [] }
    inp := Inputs.empty }

/-- The launch state: "the state after this reset (10_state.md rule R26) with empty output traces apart from the one
`Irq(lower)`" (R138). -/
def State.reset : State :=
  { block :=
      { data := 0x00#8, status := 0b01#2, control := 0x0#4, rxFifo := [], irqLevel := false,
        phase := .operating }
    out :=
      { tx := [], irq := [.lower], diag := [], busReplies := [], backendReplies := [], internalReplies := [] }
    inp := Inputs.empty }

end Sys2Proof.Machine
end

