-- ==== Sys2Proof/Machine/Flags.lean ====
section
/-! DEFINITION. The two STATUS flags (spec/10_state.md R12) and the four CONTROL bits (R13): reading, setting and
clearing each. -/

namespace Sys2Proof.Machine

/-- A register value with one bit set. -/
def setBit {w : Nat} (v : BitVec w) (bit : Nat) : BitVec w :=
  v ||| BitVec.twoPow w bit

/-- A register value with one bit cleared. -/
def clearBit {w : Nat} (v : BitVec w) (bit : Nat) : BitVec w :=
  v &&& ~~~BitVec.twoPow w bit

/-- `S.status.TX_READY` (R12). -/
def PeripheralState.txReady (b : PeripheralState) : Bool := b.status.getLsbD Config.txReadyBit

/-- `S.status.RX_AVAIL` (R12). -/
def PeripheralState.rxAvail (b : PeripheralState) : Bool := b.status.getLsbD Config.rxAvailBit

/-- `S.control.TX_EN` (R13). -/
def PeripheralState.txEn (b : PeripheralState) : Bool := b.control.getLsbD Config.txEnBit

/-- `S.control.RX_EN` (R13). -/
def PeripheralState.rxEn (b : PeripheralState) : Bool := b.control.getLsbD Config.rxEnBit

/-- `S.control.TX_INT_EN` (R13). -/
def PeripheralState.txIntEn (b : PeripheralState) : Bool := b.control.getLsbD Config.txIntEnBit

/-- `S.control.RX_INT_EN` (R13). -/
def PeripheralState.rxIntEn (b : PeripheralState) : Bool := b.control.getLsbD Config.rxIntEnBit

/-- `S.status.TX_READY <- 1` (R12: set by RESET and by every WRITE_DATA with TX_EN = 1). -/
def withTxReady (status : BitVec 2) : BitVec 2 := setBit status Config.txReadyBit

/-- `S.status.RX_AVAIL <- 1` (R12: set by a DEPOSIT that takes the FIFO from empty to non-empty). -/
def withRxAvail (status : BitVec 2) : BitVec 2 := setBit status Config.rxAvailBit

/-- `S.status.RX_AVAIL <- 0` (R12: cleared by a POP_FRONT that drains the FIFO, and by RESET). -/
def withoutRxAvail (status : BitVec 2) : BitVec 2 := clearBit status Config.rxAvailBit

end Sys2Proof.Machine
end

