-- ==== Sys2Proof/Machine/Operands.lean ====
section
/-! DEFINITION. Operand assembly (spec/30_encoding.md R52, spec/20_memory.md R35): how operands are taken from a bus transaction and
how the result of a read is formed. -/

namespace Sys2Proof.Machine

/-- `trunc_{8·size}(zext_32(reg))`, the result of reading a register `reg` (R35, R52), kept in 32 bits with zeros
above (log entry 33). Never sign-extended (R61). -/
def readResult {w : Nat} (size : Nat) (reg : BitVec w) : Word :=
  ((reg.setWidth 32).setWidth (8 * size)).setWidth 32

/-- `value[7:0]`, the operand of a DATA write (R52). -/
def dataOperand (value : Word) : Byte := value.setWidth 8

/-- `value[3:0]`, the operand of a CONTROL write; `CONTROL_MASK` = 0xF (R6, R52; decision D8, log entry 14). -/
def controlOperand (value : Word) : BitVec 4 := (value &&& Config.controlMask).setWidth 4

end Sys2Proof.Machine
end

