-- ==== Sys2Proof/Machine/Ops.lean ====
section
/-! DEFINITION. The shared operations over the state: field updates, the events on the output traces, taking an anomaly (spec/60_exceptions.md
R124), raising and lowering the line (spec/43_interrupt_controller.md R105, R106), the FIFO (spec/41_receive_fifo.md R90 to R93),
the transmitter (spec/42_transmit_path.md R100), the reset (spec/70_reset_and_hazards.md R135), the guards of the operations, and the
ports (spec/20_memory.md R40, R41). -/

namespace Sys2Proof.Machine

/-! Field updates of PeripheralState. -/

/-- `S.data <- b`. -/
def State.setData (s : State) (b : Byte) : State := { s with block := { s.block with data := b } }

/-- `S.status <- v`. -/
def State.setStatus (s : State) (v : BitVec 2) : State := { s with block := { s.block with status := v } }

/-- `S.control <- v`. -/
def State.setControl (s : State) (v : BitVec 4) : State := { s with block := { s.block with control := v } }

/-- `S.rx_fifo <- q`. -/
def State.setRxFifo (s : State) (q : List Byte) : State := { s with block := { s.block with rxFifo := q } }

/-- `S.irq_level <- l`. -/
def State.setIrqLevel (s : State) (l : Bool) : State := { s with block := { s.block with irqLevel := l } }

/-- `S.phase <- p`. -/
def State.setPhase (s : State) (p : Phase) : State := { s with block := { s.block with phase := p } }

/-! Events and answers. -/

/-- `emit Irq(e)` (R8, R24). -/
def State.emitIrq (s : State) (e : IrqEvent) : State := { s with out := { s.out with irq := s.out.irq ++ [e] } }

/-- `emit Tx(b)`: "one `write_bytes([b])` call; its returned count is ignored" (R23, R100). The backend's answer is taken from
the supply of answers and dropped (U3; log entry 21). -/
def State.emitTx (s : State) (b : Byte) : State :=
  { s with
    out := { s.out with tx := s.out.tx ++ [b] }
    inp := { s.inp with backendAnswers := s.inp.backendAnswers.tail } }

/-- TAKING AN ANOMALY that is logged: "An anomaly changes nothing in `S`; it appends at most one diagnostic event; no
state is saved, no mode changes, control goes nowhere" (R124, R116). There is no return (R125). -/
def State.takeAnomaly (s : State) (kind : DiagKind) (info : DiagInfo) : State :=
  { s with out := { s.out with diag := s.out.diag ++ [{ kind := kind, info := info }] } }

/-- The answer of a bus transaction (R21). -/
def State.replyBus (s : State) (r : BusReply) : State :=
  { s with out := { s.out with busReplies := s.out.busReplies ++ [r] } }

/-- The count returned to the backend (R22). -/
def State.replyBackend (s : State) (n : Nat) : State :=
  { s with out := { s.out with backendReplies := s.out.backendReplies ++ [n] } }

/-- The optional byte a POP_FRONT run as an operation of its own yields (R93; log entry 7). -/
def State.replyInternal (s : State) (r : Option Byte) : State :=
  { s with out := { s.out with internalReplies := s.out.internalReplies ++ [r] } }

/-! The interrupt line. -/

/-- RAISE: `S.irq_level <- true; emit Irq(raise)` (R105), also when the line is already high (decision D14, log entry 20). -/
def raiseLine (s : State) : State := (s.setIrqLevel true).emitIrq .raise

/-- LOWER: `S.irq_level <- false; emit Irq(lower)` (R106), also when the line is already low. -/
def lowerLine (s : State) : State := (s.setIrqLevel false).emitIrq .lower

/-! The Receive FIFO. -/

/-- CAN_ACCEPT: the free space of the FIFO, or 0 when RX_EN = 0 (R90). -/
def canAccept (s : State) : Nat :=
  if s.block.rxEn then Config.fifoCapacity - s.block.rxFifo.length else 0

/-- The number of the offered bytes a DEPOSIT enqueues: `min(len(bytes), CAN_ACCEPT())` (R91). -/
def acceptedCount (s : State) (bytes : List Byte) : Nat := min bytes.length (canAccept s)

/-- DEPOSIT without its answer (R91): enqueue the first bytes that fit; on an empty-to-non-empty transition set RX_AVAIL and, if
RX_INT_EN is set, request a raise. -/
def depositBytes (s : State) (bytes : List Byte) : State :=
  let n := acceptedCount s bytes
  let queued := s.setRxFifo (s.block.rxFifo ++ bytes.take n)
  let logged :=
    if Config.logOverrun && decide (n < bytes.length) then
      queued.takeAnomaly .fifoOverrun (.lostBytes (bytes.length - n))
    else queued
  if s.block.rxFifo = [] ∧ 0 < n then
    let available := logged.setStatus (withRxAvail logged.block.status)
    if available.block.rxIntEn then raiseLine available else available
  else logged

/-- POP_FRONT (R93): the front byte, if there is one, and the state without it; RX_AVAIL is cleared when the FIFO becomes empty. -/
def popFront (s : State) : Option Byte × State :=
  match s.block.rxFifo with
  | [] => (none, s)
  | b :: rest =>
    let popped := s.setRxFifo rest
    if rest = [] then (some b, popped.setStatus (withoutRxAvail popped.block.status))
    else (some b, popped)

/-- The state change of RD_DATA (R71): pop, and latch the popped byte; on an empty FIFO nothing changes. -/
def readData (s : State) : State :=
  match popFront s with
  | (some b, t) => t.setData b
  | (none, t) => t

/-! The Transmit Path. -/

/-- Does a DATA write update the DATA register? `DATA_WRITE_LATCH` (R6; decision D9, log entry 15). -/
def latchesWrite (txEn : Bool) : Bool :=
  match Config.dataWriteLatch with
  | .never => false
  | .txEnabled => txEn
  | .always => true

/-- WRITE_DATA (R100): nothing when TX_EN = 0; else latch, forward, (re)assert TX_READY and, if TX_INT_EN is set, request a raise. -/
def transmitByte (s : State) (b : Byte) : State :=
  let latched := if latchesWrite s.block.txEn then s.setData b else s
  if s.block.txEn then
    let sent := latched.emitTx b
    let ready := sent.setStatus (withTxReady sent.block.status)
    if ready.block.txIntEn then raiseLine ready else ready
  else latched

/-! Reset. -/

/-- RESET (R135), from any state and in either phase. The output traces and the inputs are kept (R135 corner case f). -/
def resetBlock (s : State) : State :=
  (lowerLine
    ((((s.setData 0x00#8).setControl 0x0#4).setRxFifo []).setStatus 0b01#2)).setPhase .operating

/-! The guards of the operations. -/

/-- "In phase `UNINITIALIZED` only RESET is defined; every other operation is refused" (R16; decision D12, log entry 18). -/
def whenOperating (s : State) (t : State) : Host.Outcome State Fault Refusal :=
  if s.block.phase = .operating then .next t else .refused .beforeFirstReset

/-- A bus operation that completes with state `t`: "a transaction with any other size is refused" (R35), every other transaction
completes normally (R21). -/
def busAccess (s : State) (size : Nat) (t : State) : Host.Outcome State Fault Refusal :=
  if s.block.phase = .operating then
    if legalSize size then .next t else .refused .illegalSize
  else .refused .beforeFirstReset

/-! The ports: which request is taken next. -/

/-- The request that waits at a port, oldest first (R41). -/
def frontRequest (inp : Inputs) : Port → Option PortRequest
  | .bus => inp.busQueue.head?.map .bus
  | .backend => inp.backendQueue.head?.map .backend
  | .host => inp.hostQueue.head?.map .host
  | .internal => inp.internalQueue.head?.map .internal

/-- The ports in the order in which they are served when the schedule names none that has a request (log entry 4, DESIGN CHOICE). -/
def defaultOrder : List Port := [.bus, .backend, .host, .internal]

/-- The port served next and its request: the schedule's first port if a request waits there, else the first port of the default
order with one. "Two requests that arrive at the same moment are taken one after the other in either order" (R41). -/
def nextRequest (inp : Inputs) : Option (Port × PortRequest) :=
  (inp.schedule.take 1 ++ defaultOrder).findSome? (fun p => (frontRequest inp p).map (fun r => (p, r)))

/-- The inputs once the request at the front of port `p` has been taken; one entry of the schedule is used up. -/
def takeFrom (inp : Inputs) (p : Port) : Inputs :=
  let rest := { inp with schedule := inp.schedule.tail }
  match p with
  | .bus => { rest with busQueue := inp.busQueue.tail }
  | .backend => { rest with backendQueue := inp.backendQueue.tail }
  | .host => { rest with hostQueue := inp.hostQueue.tail }
  | .internal => { rest with internalQueue := inp.internalQueue.tail }

/-- The state in which the request at the front of port `p` has been taken and nothing else has happened. -/
def State.takeRequest (s : State) (p : Port) : State := { s with inp := takeFrom s.inp p }

/-- The inputs with one more request, placed before all others of its port and scheduled next. -/
def placeRequest (inp : Inputs) (r : PortRequest) : Inputs :=
  match r with
  | .bus b => { inp with busQueue := b :: inp.busQueue, schedule := .bus :: inp.schedule }
  | .backend b => { inp with backendQueue := b :: inp.backendQueue, schedule := .backend :: inp.schedule }
  | .host h => { inp with hostQueue := h :: inp.hostQueue, schedule := .host :: inp.schedule }
  | .internal c => { inp with internalQueue := c :: inp.internalQueue, schedule := .internal :: inp.schedule }

/-- The refusal that answers a request which selects no operation. -/
def refusalOf : DecodeError → Refusal
  | .noSuchOperation => .noSuchOperation
  | .illegalSize => .illegalSize
  | .instructionFetch => .instructionFetch

end Sys2Proof.Machine
end

