-- ==== Sys2Proof/Machine/BusAdapter.lean ====
section
/-! DEFINITION. The eight bus operations (spec/40_bus_adapter.md R71 to R78) and the Bus Adapter's dispatch as R70 writes it. -/

namespace Sys2Proof.Machine

/-- RD_DATA (R71): pops the front byte into DATA and returns it; on an empty FIFO returns the latch and changes nothing. -/
def execRdData (size : Nat) (s : State) : Host.Outcome State Fault Refusal :=
  busAccess s size ((readData s).replyBus (.value size (readResult size (readData s).block.data)))

/-- RD_STATUS (R72): returns the two flags; "No side effect of any kind". -/
def execRdStatus (size : Nat) (s : State) : Host.Outcome State Fault Refusal :=
  busAccess s size (s.replyBus (.value size (readResult size s.block.status)))

/-- RD_CONTROL (R73): returns the four control bits. -/
def execRdControl (size : Nat) (s : State) : Host.Outcome State Fault Refusal :=
  busAccess s size (s.replyBus (.value size (readResult size s.block.control)))

/-- RD_INVALID (R74): anomaly E1, returns 0. -/
def execRdInvalid (offset : Word) (size : Nat) (s : State) : Host.Outcome State Fault Refusal :=
  busAccess s size
    ((s.takeAnomaly .invalidAddress (.readAccess offset size)).replyBus (.value size 0#32))

/-- WR_DATA (R75): passes `value[7:0]` to the Transmit Path (R100). -/
def execWrData (size : Nat) (value : Word) (s : State) : Host.Outcome State Fault Refusal :=
  busAccess s size ((transmitByte s (dataOperand value)).replyBus .done)

/-- WR_STATUS (R76): anomaly E2; the write is ignored. -/
def execWrStatus (size : Nat) (value : Word) (s : State) : Host.Outcome State Fault Refusal :=
  busAccess s size
    ((s.takeAnomaly .invalidWriteTarget (.writeAccess Config.offStatus size value)).replyBus .done)

/-- WR_CONTROL (R77): replaces the four control bits and does nothing else (decision D11, log entry 17). -/
def execWrControl (size : Nat) (value : Word) (s : State) : Host.Outcome State Fault Refusal :=
  busAccess s size ((s.setControl (controlOperand value)).replyBus .done)

/-- WR_INVALID (R78): anomaly E1; the write has no effect. -/
def execWrInvalid (offset : Word) (size : Nat) (value : Word) (s : State) :
    Host.Outcome State Fault Refusal :=
  busAccess s size
    ((s.takeAnomaly .invalidAddress (.writeAccess offset size value)).replyBus .done)

/-- `BusRead(offset, size)`, the dispatch as R70 writes it. -/
def busRead (offset : Word) (size : Nat) (s : State) : Host.Outcome State Fault Refusal :=
  if offset = Config.offData then execRdData size s
  else if offset = Config.offStatus then execRdStatus size s
  else if offset = Config.offControl then execRdControl size s
  else execRdInvalid offset size s

/-- `BusWrite(offset, size, value)`, the dispatch as R70 writes it. -/
def busWrite (offset : Word) (size : Nat) (value : Word) (s : State) : Host.Outcome State Fault Refusal :=
  if offset = Config.offData then execWrData size value s
  else if offset = Config.offStatus then execWrStatus size value s
  else if offset = Config.offControl then execWrControl size value s
  else execWrInvalid offset size value s

end Sys2Proof.Machine
end

