-- ==== Sys2Proof/Machine/InterruptController.lean ====
section
/-! DEFINITION. The Interrupt Controller's operations (spec/43_interrupt_controller.md R105, R106). -/

namespace Sys2Proof.Machine

/-- RAISE (R105), run as an operation of its own (log entry 6). -/
def execRaise (s : State) : Host.Outcome State Fault Refusal :=
  whenOperating s (raiseLine s)

/-- LOWER (R106), run as an operation of its own (log entry 6). -/
def execLower (s : State) : Host.Outcome State Fault Refusal :=
  whenOperating s (lowerLine s)

end Sys2Proof.Machine
end

