-- ==== Sys2Proof/Machine/ReceiveFifo.lean ====
section
/-! DEFINITION. The Receive FIFO's operations (spec/41_receive_fifo.md R90, R91, R93). -/

namespace Sys2Proof.Machine

/-- CAN_ACCEPT (R90): returns the free space, or 0 when RX_EN = 0, and changes nothing. -/
def execCanAccept (s : State) : Host.Outcome State Fault Refusal :=
  whenOperating s (s.replyBackend (canAccept s))

/-- DEPOSIT (R91): enqueues what fits, drops the rest silently, and returns the count enqueued. -/
def execDeposit (bytes : List Byte) (s : State) : Host.Outcome State Fault Refusal :=
  whenOperating s ((depositBytes s bytes).replyBackend (acceptedCount s bytes))

/-- POP_FRONT (R93), run as an operation of its own: the byte it yields goes to `internalReplies` (log entries 6, 7). -/
def execPopFront (s : State) : Host.Outcome State Fault Refusal :=
  whenOperating s ((popFront s).2.replyInternal (popFront s).1)

end Sys2Proof.Machine
end

