-- ==== Sys2Proof/Machine/ResetControl.lean ====
section
/-! DEFINITION. The host's operation (spec/70_reset_and_hazards.md R135). -/

namespace Sys2Proof.Machine

/-- RESET (R135): "It may be requested in either phase and from any state." -/
def execReset (s : State) : Host.Outcome State Fault Refusal :=
  .next (resetBlock s)

end Sys2Proof.Machine
end

