-- ==== Sys2Proof/Machine/TransmitPath.lean ====
section
/-! DEFINITION. The Transmit Path's operation (spec/42_transmit_path.md R100). -/

namespace Sys2Proof.Machine

/-- WRITE_DATA (R100), run as an operation of its own (log entry 6). -/
def execWriteData (b : Byte) (s : State) : Host.Outcome State Fault Refusal :=
  whenOperating s (transmitByte s b)

end Sys2Proof.Machine
end

