-- ==== Sys2Proof/Machine/Dispatch.lean ====
section
/-! DEFINITION. The one dispatch from an operation to its meaning (spec/30_encoding.md R55). -/

namespace Sys2Proof.Machine

def exec (i : Instr) (s : State) : Host.Outcome State Fault Refusal :=
  match i with
  -- the Bus Adapter (40_bus_adapter.md)
  | .rdData size => Sys2Proof.Machine.execRdData size s
  | .rdStatus size => Sys2Proof.Machine.execRdStatus size s
  | .rdControl size => Sys2Proof.Machine.execRdControl size s
  | .rdInvalid offset size => Sys2Proof.Machine.execRdInvalid offset size s
  | .wrData size value => Sys2Proof.Machine.execWrData size value s
  | .wrStatus size value => Sys2Proof.Machine.execWrStatus size value s
  | .wrControl size value => Sys2Proof.Machine.execWrControl size value s
  | .wrInvalid offset size value => Sys2Proof.Machine.execWrInvalid offset size value s
  -- the Receive FIFO (41_receive_fifo.md)
  | .canAccept => Sys2Proof.Machine.execCanAccept s
  | .deposit bytes => Sys2Proof.Machine.execDeposit bytes s
  -- the host (70_reset_and_hazards.md)
  | .reset => Sys2Proof.Machine.execReset s
  -- the internal primitives (41_receive_fifo.md, 42_transmit_path.md, 43_interrupt_controller.md)
  | .popFront => Sys2Proof.Machine.execPopFront s
  | .writeData b => Sys2Proof.Machine.execWriteData b s
  | .raise => Sys2Proof.Machine.execRaise s
  | .lower => Sys2Proof.Machine.execLower s

end Sys2Proof.Machine
end

