-- ==== Sys2Proof/Machine/Step.lean ====
section
/-! DEFINITION. One step: one request of one agent is taken and its operation performed, as one atomic state transition
(spec/20_memory.md R40). -/

namespace Sys2Proof.Machine

/-- One step of the machine. With no request pending nothing happens: "nothing in it advances by itself" (R16; log entry 3). -/
def step (s : State) : Host.Outcome State Fault Refusal :=
  match nextRequest s.inp with
  | none => .next s
  | some (p, r) =>
    match decodePort r with
    | .ok i => exec i (s.takeRequest p)
    | .error e => .refused (refusalOf e)

/-- `s` with the request a word of opcode_table.json stands for placed at the front of its port and scheduled next: the block has no
program to fetch, so an agent's request is what makes it run an operation (log entries 2, 24). -/
def State.withFetchWord (s : State) (nbits w : Nat) : State :=
  match decodeTableWord nbits w with
  | some i => { s with inp := placeRequest s.inp (portRequestOf i) }
  | none => s

end Sys2Proof.Machine
end

