-- ==== Sys2Proof/Machine/Software.lean ====
section
/-! DEFINITION. The software side of the bus (spec/20_memory.md R31, spec/30_encoding.md R60): how a load or store becomes a bus
transaction, and the two abbreviations the spec's programs use. The block itself never sees any of it, and of the platform's parameters only BASE and
WINDOW_SIZE are read here: a transaction carries an integer value, so no byte order enters it (spec/20_memory.md R33). -/

namespace Sys2Proof.Machine

/-- The offset a software access at address `a` hands to the block: `a − BASE` for `a` in `[BASE, BASE + WINDOW_SIZE)` (R31), and
nothing outside (left to the platform, decision D4; log entry 28). -/
def windowOffset (p : Config.Platform) (a : Nat) : Option Word :=
  if p.base ≤ a ∧ a < p.base + p.windowSize then some (BitVec.ofNat 32 (a - p.base)) else none

/-- `MemRead(a, n)` is `BusRead(a − BASE, n)` (R31). -/
def memRead (p : Config.Platform) (a n : Nat) : Option BusRequest :=
  (windowOffset p a).map (fun o => .read o n)

/-- `MemWrite(a, n, v)` is `BusWrite(a − BASE, n, v)` (R31). -/
def memWrite (p : Config.Platform) (a n : Nat) (v : Word) : Option BusRequest :=
  (windowOffset p a).map (fun o => .write o n v)

/-- `PUTC b`: `RD.4 STATUS -> s`, then `WR.4 DATA, b` (R60). -/
def putc (b : Byte) : List BusRequest :=
  [.read Config.offStatus 4, .write Config.offData 4 (b.setWidth 32)]

/-- `GETC -> b`, its first transaction: `RD.4 STATUS -> s` (R60). -/
def getcPoll : BusRequest := .read Config.offStatus 4

/-- `GETC -> b`, what follows the poll: "if `s[1]` = 1 then `RD.4 DATA -> b`, otherwise no DATA read is made" (R60). -/
def getcNext (status : Word) : List BusRequest :=
  if status.getLsbD Config.rxAvailBit then [.read Config.offData 4] else []

end Sys2Proof.Machine
end

