-- ==== Sys2Proof/Safety.lean ====
section
/-! DEFINITION. The terms in which claims speak of the machine: runs, the block's invariants (spec/10_state.md R17), the anomaly classes
(spec/60_exceptions.md R115), and what an operation enqueues, pops and transmits (spec/41_receive_fifo.md R94). -/

namespace Sys2Proof.Machine

/-- `k` steps of the machine, stopping at the first refusal: the host's `Host.Core.run` of this machine
(`run_eq_core_run` in `Laws/Step.lean`). -/
def run : Nat → State → Host.Outcome State Fault Refusal
  | 0, s => .next s
  | k + 1, s =>
    match step s with
    | .next t => run k t
    | .fault r => .fault r
    | .refused r => .refused r

/-- The operation the next step performs, if a request waits and it selects one. -/
def nextInstr (s : State) : Option Instr :=
  match nextRequest s.inp with
  | none => none
  | some (_, r) =>
    match decodePort r with
    | .ok i => some i
    | .error _ => none

/-- The operations that `k` steps perform, each with the state it starts from, in order (R40: "a single sequence of operations"). -/
def history : Nat → State → List (State × Instr)
  | 0, _ => []
  | k + 1, s =>
    match step s with
    | .next t => ((nextInstr s).map (fun i => (s, i))).toList ++ history k t
    | .fault _ => []
    | .refused _ => []

/-- An internal primitive, which no port can request (R51). -/
def isInternal : Instr → Bool
  | .popFront => true
  | .writeData _ => true
  | .raise => true
  | .lower => true
  | .rdData _ => false
  | .rdStatus _ => false
  | .rdControl _ => false
  | .rdInvalid _ _ => false
  | .wrData _ _ => false
  | .wrStatus _ _ => false
  | .wrControl _ _ => false
  | .wrInvalid _ _ _ => false
  | .canAccept => false
  | .deposit _ => false
  | .reset => false

/-- The request that leaves the line at `level` (INV5: "true if that event is `Irq(raise)`, false if it is `Irq(lower)`"). -/
def lastRequestFor : Bool → IrqEvent
  | true => .raise
  | false => .lower

/-- INV1 to INV5 of R17, for a state of phase OPERATING (INV4 holds by the widths of the fields). -/
abbrev Inv (s : State) : Prop :=
  s.block.phase = .operating →
    s.block.rxFifo.length ≤ 16 ∧
    (s.block.status[1] = true ↔ s.block.rxFifo ≠ []) ∧
    s.block.status[0] = true ∧
    s.out.irq.getLast? = some (lastRequestFor s.block.irqLevel)

/-- The four anomaly classes E1 to E4 (R115; decision D22). -/
inductive Anomaly where
  | invalidAddress
  | invalidWriteTarget
  | fifoOverrun
  | backendFailure
  deriving DecidableEq, Repr

/-- Does the backend answer that it took no byte (E4: "when the backend takes fewer bytes than offered")? -/
def backendTakesNone (s : State) : Bool := s.inp.backendAnswers.head? == some 0

/-- The anomaly class of an operation, "at most one" (R115, R123). Bytes discarded because RX_EN = 0 count under E3 (R119, decision D24; log
entry 32). -/
def anomalyOf (i : Instr) (s : State) : Option Anomaly :=
  match i with
  | .rdInvalid _ _ => some .invalidAddress
  | .wrInvalid _ _ _ => some .invalidAddress
  | .wrStatus _ _ => some .invalidWriteTarget
  | .deposit bytes => if canAccept s < bytes.length then some .fifoOverrun else none
  | .wrData _ _ => if s.block.txEn && backendTakesNone s then some .backendFailure else none
  | .writeData _ => if s.block.txEn && backendTakesNone s then some .backendFailure else none
  | .rdData _ => none
  | .rdStatus _ => none
  | .rdControl _ => none
  | .wrControl _ _ => none
  | .canAccept => none
  | .reset => none
  | .popFront => none
  | .raise => none
  | .lower => none

/-- The kind of diagnostic event an anomaly class logs: E1 and E2 "always", E3 and E4 none (R115, with `LOG_OVERRUN` = false). -/
def loggedKind : Anomaly → Option DiagKind
  | .invalidAddress => some .invalidAddress
  | .invalidWriteTarget => some .invalidWriteTarget
  | .fifoOverrun => none
  | .backendFailure => none

/-- The bytes an operation adds at the back of the FIFO (R91, R94). -/
def enqueuedBy (s : State) : Instr → List Byte
  | .deposit bytes => if s.block.control[1] then bytes.take (16 - s.block.rxFifo.length) else []
  | .rdData _ | .rdStatus _ | .rdControl _ | .rdInvalid _ _ => []
  | .wrData _ _ | .wrStatus _ _ | .wrControl _ _ | .wrInvalid _ _ _ => []
  | .canAccept | .reset | .popFront | .writeData _ | .raise | .lower => []

/-- The bytes an operation removes from the front of the FIFO (R93, R94). -/
def poppedBy (s : State) : Instr → List Byte
  | .rdData _ | .popFront => s.block.rxFifo.take 1
  | .rdStatus _ | .rdControl _ | .rdInvalid _ _ => []
  | .wrData _ _ | .wrStatus _ _ | .wrControl _ _ | .wrInvalid _ _ _ => []
  | .canAccept | .deposit _ | .reset | .writeData _ | .raise | .lower => []

/-- The bytes an operation offers to the backend (R100: exactly one per DATA write with TX_EN = 1). -/
def transmittedBy (s : State) : Instr → List Byte
  | .wrData _ value => if s.block.control[0] then [value.extractLsb' 0 8] else []
  | .writeData b => if s.block.control[0] then [b] else []
  | .rdData _ | .rdStatus _ | .rdControl _ | .rdInvalid _ _ => []
  | .wrStatus _ _ | .wrControl _ _ | .wrInvalid _ _ _ => []
  | .canAccept | .deposit _ | .reset | .popFront | .raise | .lower => []

/-- All bytes a sequence of operations enqueues, in order. -/
def enqueuedIn (h : List (State × Instr)) : List Byte := h.flatMap (fun x => enqueuedBy x.1 x.2)

/-- All bytes a sequence of operations pops, in order. -/
def poppedIn (h : List (State × Instr)) : List Byte := h.flatMap (fun x => poppedBy x.1 x.2)

/-- All bytes a sequence of operations transmits, in order. -/
def transmittedIn (h : List (State × Instr)) : List Byte := h.flatMap (fun x => transmittedBy x.1 x.2)

/-- The state but for what the backend will answer. -/
def State.withoutAnswers (s : State) : State := { s with inp := { s.inp with backendAnswers := [] } }

/-- Two outcomes that differ at most in what the backend will answer. -/
def sameButAnswers (o o' : Host.Outcome State Fault Refusal) : Prop :=
  match o, o' with
  | .next t, .next u => t.withoutAnswers = u.withoutAnswers
  | .fault f, .fault g => f = g
  | .refused r, .refused q => r = q
  | _, _ => False

end Sys2Proof.Machine
end

