-- ==== Sys2Proof/Certificates/Slice0/Obligations.lean ====
section
/-! DEFINITION. The statements about the machine, for the provers. An equation `exec i s = .next t` gives the whole next state: what `t`'s
record update does not name is unchanged (the frame). Bit numbers and reset values are written out as the spec gives them. -/

open Sys2Proof Sys2Proof.Machine

/-! Reset and lifecycle. -/

/-- R135: RESET from any state, in either phase. -/
def Obligations.ResetFromAnyState : Prop :=
  ∀ s : State,
    exec .reset s = .next
      { block :=
          { data := 0x00#8, status := 0b01#2, control := 0x0#4, rxFifo := [], irqLevel := false,
            phase := .operating }
        out := { s.out with irq := s.out.irq ++ [.lower] }
        inp := s.inp }

/-- R26 and R138 step 2: the launch state is the state after the first reset, with empty traces but for the one Irq(lower). That nothing is
pending and no answer is recorded in it is the model's (log entries 2, 8). -/
def Obligations.LaunchStateIsTheStateAfterTheFirstReset : Prop :=
  State.reset.block =
    { data := 0x00#8, status := 0b01#2, control := 0x0#4, rxFifo := [], irqLevel := false, phase := .operating } ∧
  State.reset.out =
    { tx := [], irq := [.lower], diag := [], busReplies := [], backendReplies := [], internalReplies := [] } ∧
  State.reset.inp =
    { busQueue := [], backendQueue := [], hostQueue := [], internalQueue := [], schedule := [],
      backendAnswers := [] } ∧
  ∀ b : PeripheralState, b.phase = .uninitialized →
    exec .reset { State.attached with block := b } = .next State.reset

/-- R16, R137 (decision D12, log entry 18): before the first reset every operation but RESET is refused. -/
def Obligations.OnlyResetRunsBeforeTheFirstReset : Prop :=
  ∀ (i : Instr) (s : State), s.block.phase = .uninitialized → i ≠ .reset →
    exec i s = .refused .beforeFirstReset

/-- R137: no step leads back to phase UNINITIALIZED. -/
def Obligations.NoStepLeavesPhaseOperating : Prop :=
  ∀ s t : State, s.block.phase = .operating → step s = .next t → t.block.phase = .operating

/-! Bus reads. -/

/-- R71, non-empty FIFO (read not gated by RX_EN: decision D10, log entry 16). -/
def Obligations.RdDataPopsTheFrontByte : Prop :=
  ∀ (size : Nat) (s : State) (b : Byte) (rest : List Byte),
    s.block.phase = .operating → 1 ≤ size → size ≤ 4 → s.block.rxFifo = b :: rest →
    exec (.rdData size) s = .next
      { block :=
          { s.block with
            data := b
            rxFifo := rest
            status := if rest = [] then s.block.status &&& 0b01#2 else s.block.status }
        out :=
          { s.out with
            busReplies := s.out.busReplies ++ [.value size (((b.setWidth 32).setWidth (8 * size)).setWidth 32)] }
        inp := s.inp }

/-- R71, empty FIFO: the pinned reading of an ambiguity of the source (C1, C10, U1; log entry 22). -/
def Obligations.RdDataOnAnEmptyFifoReturnsTheLatch : Prop :=
  ∀ (size : Nat) (s : State),
    s.block.phase = .operating → 1 ≤ size → size ≤ 4 → s.block.rxFifo = [] →
    exec (.rdData size) s = .next
      { s with
        out :=
          { s.out with
            busReplies :=
              s.out.busReplies ++ [.value size (((s.block.data.setWidth 32).setWidth (8 * size)).setWidth 32)] } }

/-- R72: RD_STATUS returns the two flags and has "No side effect of any kind". The second clause is the rule's corner case, which the spec marks
as derived from INV2 and INV3 of R17: under the block's invariants the value is 1 on an empty FIFO and 3 on a non-empty one. -/
def Obligations.RdStatusReturnsTheFlagsOnly : Prop :=
  ∀ (size : Nat) (s : State), s.block.phase = .operating → 1 ≤ size → size ≤ 4 →
    exec (.rdStatus size) s = .next
      { s with
        out :=
          { s.out with
            busReplies :=
              s.out.busReplies ++
                [.value size (((s.block.status.setWidth 32).setWidth (8 * size)).setWidth 32)] } } ∧
    (Inv s →
      ((s.block.status.setWidth 32).setWidth (8 * size)).setWidth 32 = if s.block.rxFifo = [] then 1#32 else 3#32)

/-- R73: RD_CONTROL returns the stored four bits and changes nothing (that only four bits are stored: decision D8, log entry 14). -/
def Obligations.RdControlReturnsTheControlBitsOnly : Prop :=
  ∀ (size : Nat) (s : State), s.block.phase = .operating → 1 ≤ size → size ≤ 4 →
    exec (.rdControl size) s = .next
      { s with
        out :=
          { s.out with
            busReplies :=
              s.out.busReplies ++
                [.value size (((s.block.control.setWidth 32).setWidth (8 * size)).setWidth 32)] } }

/-- R74: RD_INVALID returns 0, logs anomaly E1 and changes nothing else. -/
def Obligations.RdInvalidReturnsZeroAndLogs : Prop :=
  ∀ (offset : Word) (size : Nat) (s : State), s.block.phase = .operating → 1 ≤ size → size ≤ 4 →
    exec (.rdInvalid offset size) s = .next
      { s with
        out :=
          { s.out with
            diag := s.out.diag ++ [{ kind := .invalidAddress, info := .readAccess offset size }]
            busReplies := s.out.busReplies ++ [.value size 0#32] } }

/-- R35's derived sentence: a register of at most 8 bits reads as the same number at every legal size. -/
def Obligations.ReadValueDoesNotDependOnTheSize : Prop :=
  ∀ (size w : Nat) (reg : BitVec w), 1 ≤ size → size ≤ 4 → w ≤ 8 →
    (readResult size reg).toNat = reg.toNat

/-! Bus writes. -/

/-- R75, R100 with TX_EN = 1 (the latch: decision D9, log entry 15; one Irq event per request: decision D14, log entry 20). -/
def Obligations.WrDataWithTxEnTransmits : Prop :=
  ∀ (size : Nat) (value : Word) (s : State),
    s.block.phase = .operating → 1 ≤ size → size ≤ 4 → s.block.control[0] = true →
    exec (.wrData size value) s = .next
      { block :=
          { s.block with
            data := value.extractLsb' 0 8
            status := s.block.status ||| 0b01#2
            irqLevel := s.block.control[2] || s.block.irqLevel }
        out :=
          { s.out with
            tx := s.out.tx ++ [value.extractLsb' 0 8]
            irq := s.out.irq ++ (if s.block.control[2] = true then [.raise] else [])
            busReplies := s.out.busReplies ++ [.done] }
        inp := { s.inp with backendAnswers := s.inp.backendAnswers.tail } }

/-- R75, R100 with TX_EN = 0: "the write is a no-op" (no latch: decision D9, log entry 15). -/
def Obligations.WrDataWithoutTxEnIsDiscarded : Prop :=
  ∀ (size : Nat) (value : Word) (s : State),
    s.block.phase = .operating → 1 ≤ size → size ≤ 4 → s.block.control[0] = false →
    exec (.wrData size value) s = .next
      { s with out := { s.out with busReplies := s.out.busReplies ++ [.done] } }

/-- R76: WR_STATUS is rejected: logged, no state change. -/
def Obligations.WrStatusIsLoggedAndIgnored : Prop :=
  ∀ (size : Nat) (value : Word) (s : State), s.block.phase = .operating → 1 ≤ size → size ≤ 4 →
    exec (.wrStatus size value) s = .next
      { s with
        out :=
          { s.out with
            diag := s.out.diag ++ [{ kind := .invalidWriteTarget, info := .writeAccess 0x04#32 size value }]
            busReplies := s.out.busReplies ++ [.done] } }

/-- R77: WR_CONTROL replaces all four bits and does nothing else (decisions D8, D11; log entries 14, 17). -/
def Obligations.WrControlReplacesTheFourBitsOnly : Prop :=
  ∀ (size : Nat) (value : Word) (s : State), s.block.phase = .operating → 1 ≤ size → size ≤ 4 →
    exec (.wrControl size value) s = .next
      { s with
        block := { s.block with control := value.extractLsb' 0 4 }
        out := { s.out with busReplies := s.out.busReplies ++ [.done] } }

/-- R78: WR_INVALID logs anomaly E1 and has no effect. -/
def Obligations.WrInvalidIsLoggedAndIgnored : Prop :=
  ∀ (offset : Word) (size : Nat) (value : Word) (s : State),
    s.block.phase = .operating → 1 ≤ size → size ≤ 4 →
    exec (.wrInvalid offset size value) s = .next
      { s with
        out :=
          { s.out with
            diag := s.out.diag ++ [{ kind := .invalidAddress, info := .writeAccess offset size value }]
            busReplies := s.out.busReplies ++ [.done] } }

/-- R35 (decision D5, log entry 12): a bus operation with a size other than 1, 2, 3, 4 is refused, on the port and by its meaning. -/
def Obligations.OtherSizesAreRefused : Prop :=
  ∀ (size : Nat) (value offset : Word) (s : State), size = 0 ∨ 5 ≤ size →
    decodePort (.bus (.read offset size)) = .error .illegalSize ∧
    decodePort (.bus (.write offset size value)) = .error .illegalSize ∧
    (s.block.phase = .operating →
      ∀ i ∈ [Instr.rdData size, .rdStatus size, .rdControl size, .rdInvalid offset size, .wrData size value,
        .wrStatus size value, .wrControl size value, .wrInvalid offset size value],
        exec i s = .refused .illegalSize)

/-! Backend operations. -/

/-- R90: CAN_ACCEPT returns the free space if RX_EN = 1 and 0 otherwise, and changes nothing. -/
def Obligations.CanAcceptReturnsTheFreeSpace : Prop :=
  ∀ s : State, s.block.phase = .operating →
    exec .canAccept s = .next
      { s with
        out :=
          { s.out with
            backendReplies :=
              s.out.backendReplies ++ [if s.block.control[1] = true then 16 - s.block.rxFifo.length else 0] } }

/-- R91: DEPOSIT of any byte sequence (admitted beyond CAN_ACCEPT's answer: decision D25; no overrun event: decision D13, log entry 19). -/
def Obligations.DepositEnqueuesWhatFits : Prop :=
  ∀ (bytes : List Byte) (s : State), s.block.phase = .operating →
    let n := min bytes.length (if s.block.control[1] = true then 16 - s.block.rxFifo.length else 0)
    exec (.deposit bytes) s = .next
      { block :=
          { s.block with
            rxFifo := s.block.rxFifo ++ bytes.take n
            status := if s.block.rxFifo = [] ∧ 0 < n then s.block.status ||| 0b10#2 else s.block.status
            irqLevel :=
              if (s.block.rxFifo = [] ∧ 0 < n) ∧ s.block.control[3] = true then true else s.block.irqLevel }
        out :=
          { s.out with
            irq :=
              s.out.irq ++ (if (s.block.rxFifo = [] ∧ 0 < n) ∧ s.block.control[3] = true then [.raise] else [])
            backendReplies := s.out.backendReplies ++ [n] }
        inp := s.inp }

/-- R92: a backend that delivers no more than CAN_ACCEPT answered, with nothing in between, loses no byte (decision D25). -/
def Obligations.DeliveryWithinCanAcceptLosesNothing : Prop :=
  ∀ (s t u : State) (bytes : List Byte) (n : Nat),
    exec .canAccept s = .next t → t.out.backendReplies = s.out.backendReplies ++ [n] → bytes.length ≤ n →
    exec (.deposit bytes) t = .next u →
    u.block.rxFifo = s.block.rxFifo ++ bytes ∧ u.out.backendReplies = t.out.backendReplies ++ [bytes.length]

/-! Internal primitives, each run as an operation of its own (log entry 6). -/

/-- R93: POP_FRONT. Where its result goes when nothing calls it is the model's (log entry 7). -/
def Obligations.PopFrontYieldsTheFrontByte : Prop :=
  ∀ s : State, s.block.phase = .operating →
    (s.block.rxFifo = [] →
      exec .popFront s = .next
        { s with out := { s.out with internalReplies := s.out.internalReplies ++ [none] } }) ∧
    (∀ b rest, s.block.rxFifo = b :: rest →
      exec .popFront s = .next
        { s with
          block :=
            { s.block with
              rxFifo := rest
              status := if rest = [] then s.block.status &&& 0b01#2 else s.block.status }
          out := { s.out with internalReplies := s.out.internalReplies ++ [some b] } })

/-- R100: WRITE_DATA (the latch: decision D9, log entry 15; one Irq event per request: decision D14, log entry 20). -/
def Obligations.WriteDataForwardsOrDiscards : Prop :=
  ∀ (b : Byte) (s : State), s.block.phase = .operating →
    (s.block.control[0] = false → exec (.writeData b) s = .next s) ∧
    (s.block.control[0] = true →
      exec (.writeData b) s = .next
        { block :=
            { s.block with
              data := b
              status := s.block.status ||| 0b01#2
              irqLevel := s.block.control[2] || s.block.irqLevel }
          out :=
            { s.out with
              tx := s.out.tx ++ [b]
              irq := s.out.irq ++ (if s.block.control[2] = true then [.raise] else []) }
          inp := { s.inp with backendAnswers := s.inp.backendAnswers.tail } })

/-- R105: RAISE (the event is recorded also when the line is high: decision D14, log entry 20). -/
def Obligations.RaiseSetsTheLine : Prop :=
  ∀ s : State, s.block.phase = .operating →
    exec .raise s = .next
      { s with
        block := { s.block with irqLevel := true }
        out := { s.out with irq := s.out.irq ++ [.raise] } }

/-- R106: LOWER. -/
def Obligations.LowerClearsTheLine : Prop :=
  ∀ s : State, s.block.phase = .operating →
    exec .lower s = .next
      { s with
        block := { s.block with irqLevel := false }
        out := { s.out with irq := s.out.irq ++ [.lower] } }

/-! Decode and encode. -/

/-- R54: the decode table of the bus port, for every direction and offset, at every legal size. -/
def Obligations.BusPortDecodesByTheWholeOffset : Prop :=
  ∀ (offset : Word) (size : Nat) (value : Word), 1 ≤ size → size ≤ 4 →
    decodePort (.bus (.read offset size)) = .ok
      (if offset.toNat = 0x00 then .rdData size
       else if offset.toNat = 0x04 then .rdStatus size
       else if offset.toNat = 0x08 then .rdControl size
       else .rdInvalid offset size) ∧
    decodePort (.bus (.write offset size value)) = .ok
      (if offset.toNat = 0x00 then .wrData size value
       else if offset.toNat = 0x04 then .wrStatus size value
       else if offset.toNat = 0x08 then .wrControl size value
       else .wrInvalid offset size value)

/-- R70: a step that takes a bus transaction does what the dispatch of R70 does, and in phase OPERATING the transaction completes in that one
step with one answer, the value of a read or the completion of a write. -/
def Obligations.StepOnTheBusPortIsTheBusDispatch : Prop :=
  (∀ (s : State) (offset : Word) (size : Nat), 1 ≤ size → size ≤ 4 →
    nextRequest s.inp = some (.bus, .bus (.read offset size)) →
    step s = busRead offset size (s.takeRequest .bus) ∧
    (s.block.phase = .operating →
      ∃ (t : State) (value : BitVec 32), step s = .next t ∧ t.out.busReplies = s.out.busReplies ++ [.value size value])) ∧
  (∀ (s : State) (offset : Word) (size : Nat) (value : Word), 1 ≤ size → size ≤ 4 →
    nextRequest s.inp = some (.bus, .bus (.write offset size value)) →
    step s = busWrite offset size value (s.takeRequest .bus) ∧
    (s.block.phase = .operating →
      ∃ t : State, step s = .next t ∧ t.out.busReplies = s.out.busReplies ++ [.done]))

/-- R53, R59: words of opcode_table.json and the operations they stand for (sizes and other operands: log entry 24). -/
def Obligations.TableWordsDecodeToTheirRows : Prop :=
  decodeTableWord 40 0x000000000 = some (.rdData 4) ∧
  decodeTableWord 40 0x000000004 = some (.rdStatus 4) ∧
  decodeTableWord 40 0x000000008 = some (.rdControl 4) ∧
  decodeTableWord 40 0x00000000C = some (.rdInvalid 0x0C#32 4) ∧
  decodeTableWord 40 0x100000000 = some (.wrData 4 0#32) ∧
  decodeTableWord 40 0x100000004 = some (.wrStatus 4 0#32) ∧
  decodeTableWord 40 0x100000008 = some (.wrControl 4 0#32) ∧
  decodeTableWord 40 0x1FFFFFFFC = some (.wrInvalid 0xFFFFFFFC#32 4 0#32) ∧
  decodeTableWord 40 0x200000000 = some .canAccept ∧
  decodeTableWord 40 0x200000001 = some (.deposit []) ∧
  decodeTableWord 40 0x400000000 = some .reset ∧
  decodeTableWord 40 0x600000000 = some .popFront ∧
  decodeTableWord 40 0x600000001 = some (.writeData 0#8) ∧
  decodeTableWord 40 0x600000002 = some .raise ∧
  decodeTableWord 40 0x600000003 = some .lower ∧
  decodeTableWord 40 0x200000002 = none ∧
  decodeTableWord 40 0x600000004 = none

/-- Decoding what the encoders write for a well-formed operation gives it back, through the key and through the port. -/
def Obligations.DecodeOfEncodeIsTheOperation : Prop :=
  ∀ i : Instr, i.wellFormed = true → decode (encode i) = .ok i ∧ decodePort (portRequestOf i) = .ok i

/-- R51: no request of an agent selects an internal primitive, and no step puts an internal call in its queue (log entry 6). -/
def Obligations.NoAgentCanRequestAnInternalPrimitive : Prop :=
  (∀ (r : PortRequest) (i : Instr), (∀ c, r ≠ .internal c) → decodePort r = .ok i → isInternal i = false) ∧
  (∀ s t : State, s.inp.internalQueue = [] → step s = .next t → t.inp.internalQueue = [])

/-! Steps. -/

/-- A step takes the request at the front of the port served next and performs the operation it selects; taking it changes that port's queue
and the schedule only (the ports and the schedule are the model's: log entries 1, 4, 5). -/
def Obligations.StepRunsTheDecodedRequest : Prop :=
  ∀ (s : State) (p : Port) (r : PortRequest) (i : Instr),
    nextRequest s.inp = some (p, r) → decodePort r = .ok i →
    step s = exec i (s.takeRequest p) ∧
    frontRequest s.inp p = some r ∧
    s.takeRequest p =
      { s with
        inp :=
          { busQueue := if p = .bus then s.inp.busQueue.tail else s.inp.busQueue
            backendQueue := if p = .backend then s.inp.backendQueue.tail else s.inp.backendQueue
            hostQueue := if p = .host then s.inp.hostQueue.tail else s.inp.hostQueue
            internalQueue := if p = .internal then s.inp.internalQueue.tail else s.inp.internalQueue
            schedule := s.inp.schedule.tail
            backendAnswers := s.inp.backendAnswers } }

/-- R16: with no request pending "nothing in it advances by itself" (log entry 3). -/
def Obligations.StepWithoutARequestChangesNothing : Prop :=
  ∀ s : State, s.inp.busQueue = [] → s.inp.backendQueue = [] → s.inp.hostQueue = [] → s.inp.internalQueue = [] →
    step s = .next s

/-- R45 and R35 (decisions D19, D5; log entries 12, 23): an instruction fetch and a transaction of another size are refused by name. -/
def Obligations.StepRefusesFetchesAndOtherSizes : Prop :=
  ∀ (s : State) (offset : Word) (size : Nat) (value : Word),
    (nextRequest s.inp = some (.bus, .bus (.fetch offset size)) → step s = .refused .instructionFetch) ∧
    (size = 0 ∨ 5 ≤ size →
      (nextRequest s.inp = some (.bus, .bus (.read offset size)) ∨
        nextRequest s.inp = some (.bus, .bus (.write offset size value))) →
      step s = .refused .illegalSize)

/-- R41 (decision D17, log entry 4): whichever agent's request waits, some schedule takes it next. -/
def Obligations.SomeScheduleTakesAnyWaitingRequest : Prop :=
  ∀ (s : State) (p : Port) (r : PortRequest), frontRequest s.inp p = some r →
    ∃ sched : List Port, nextRequest { s.inp with schedule := sched } = some (p, r)

/-- R147, its first sentence: every requested operation has a step in phase OPERATING, whichever port is served (bus requests with a size of 1 to
4 and no fetch, decisions D5, D19). -/
def Obligations.EveryRequestedOperationHasAStep : Prop :=
  ∀ s : State, s.block.phase = .operating →
    (∀ o n, s.inp.busQueue.head? ≠ some (.fetch o n)) →
    (∀ o n, s.inp.busQueue.head? = some (.read o n) → 1 ≤ n ∧ n ≤ 4) →
    (∀ o n v, s.inp.busQueue.head? = some (.write o n v) → 1 ≤ n ∧ n ≤ 4) →
    ∃ t : State, step s = .next t ∧ t.block.phase = .operating

/-! Invariants. -/

/-- INV1 to INV5 of R17 hold in the launch state. -/
def Obligations.InvariantHoldsAtReset : Prop :=
  Inv State.reset ∧ State.reset.block.phase = .operating

/-- INV1 to INV5 of R17 are kept by every step. -/
def Obligations.EveryStepKeepsTheInvariant : Prop :=
  ∀ s t : State, Inv s → step s = .next t → Inv t

/-- INV7 of R17: a bus write never changes STATUS or the FIFO. -/
def Obligations.BusWritesKeepStatusAndFifo : Prop :=
  ∀ (i : Instr) (s t : State), Inv s →
    (∃ n v, i = .wrData n v ∨ i = .wrStatus n v ∨ i = .wrControl n v ∨ ∃ o, i = .wrInvalid o n v) →
    exec i s = .next t →
    t.block.status = s.block.status ∧ t.block.rxFifo = s.block.rxFifo

/-! The interrupt line. -/

/-- R107 and R108: the complete lists of raise and lower conditions, for every operation a port can request. -/
def Obligations.LineIsRaisedAndLoweredOnlyAsListed : Prop :=
  ∀ (i : Instr) (s t : State), isInternal i = false → exec i s = .next t →
    (i = .reset → t.block.irqLevel = false) ∧
    (i ≠ .reset →
      (t.block.irqLevel = true ↔
        s.block.irqLevel = true ∨
        ((∃ size value, i = .wrData size value) ∧ s.block.control[0] = true ∧ s.block.control[2] = true) ∨
        ((∃ b bytes, i = .deposit (b :: bytes)) ∧ s.block.rxFifo = [] ∧ s.block.control[1] = true ∧
          s.block.control[3] = true)))

/-- R24, R107 (decision D14, log entry 20): which requests each operation of a port puts on `irq_out`. -/
def Obligations.IrqEventsAreTheListedRequests : Prop :=
  ∀ (i : Instr) (s t : State), isInternal i = false → exec i s = .next t →
    t.out.irq = s.out.irq ++
      match i with
      | .reset => [.lower]
      | .wrData _ _ => if s.block.control[0] = true ∧ s.block.control[2] = true then [.raise] else []
      | .deposit bytes =>
        if bytes ≠ [] ∧ s.block.rxFifo = [] ∧ s.block.control[1] = true ∧ s.block.control[3] = true then [.raise]
        else []
      | _ => []

/-- INV6 of R17 and R108: over any run without a RESET a raised line stays raised. -/
def Obligations.RaisedLineStaysHighUntilReset : Prop :=
  ∀ (k : Nat) (s t : State), s.block.irqLevel = true → s.inp.internalQueue = [] → run k s = .next t →
    (∀ x ∈ history k s, x.2 ≠ .reset) → t.block.irqLevel = true

/-! Who changes what, and what the traces say. -/

/-- R27: the complete list, for every field of PeripheralState, of the operations that can change it (the primitives, run on their own, included). -/
def Obligations.FieldsChangeOnlyAsListed : Prop :=
  ∀ (i : Instr) (s t : State), exec i s = .next t → i ≠ .reset →
    (t.block.data ≠ s.block.data →
      ((∃ n, i = .rdData n) ∧ s.block.rxFifo ≠ []) ∨
      (((∃ n v, i = .wrData n v) ∨ ∃ b, i = .writeData b) ∧ s.block.control[0] = true)) ∧
    (t.block.status[0] ≠ s.block.status[0] →
      ((∃ n v, i = .wrData n v) ∨ ∃ b, i = .writeData b) ∧ s.block.control[0] = true) ∧
    (t.block.status[1] ≠ s.block.status[1] →
      ((∃ bytes, i = .deposit bytes) ∧ s.block.rxFifo = [] ∧ t.block.rxFifo ≠ []) ∨
      (((∃ n, i = .rdData n) ∨ i = .popFront) ∧ s.block.rxFifo ≠ [] ∧ t.block.rxFifo = [])) ∧
    (t.block.control ≠ s.block.control → ∃ n v, i = .wrControl n v) ∧
    (t.block.rxFifo ≠ s.block.rxFifo → (∃ bytes, i = .deposit bytes) ∨ (∃ n, i = .rdData n) ∨ i = .popFront) ∧
    (t.block.irqLevel ≠ s.block.irqLevel →
      (((∃ n v, i = .wrData n v) ∨ ∃ b, i = .writeData b) ∧ s.block.control[0] = true ∧ s.block.control[2] = true) ∨
      ((∃ bytes, i = .deposit bytes) ∧ s.block.rxFifo = [] ∧ t.block.rxFifo ≠ [] ∧ s.block.control[3] = true) ∨
      i = .raise ∨ i = .lower) ∧
    t.block.phase = s.block.phase

/-- R115, R116, R121, R123 (decisions D13, D22; log entries 19, 32): the diagnostic events are those of the anomaly class, one per anomalous access
of class E1 or E2 and none otherwise, and an anomalous bus access changes nothing in S. -/
def Obligations.DiagnosticEventsAreThoseOfTheAnomaly : Prop :=
  ∀ (i : Instr) (s t : State), exec i s = .next t →
    (t.out.diag.map DiagEvent.kind =
      s.out.diag.map DiagEvent.kind ++ ((anomalyOf i s).bind loggedKind).toList) ∧
    (anomalyOf i s = some .invalidAddress ∨ anomalyOf i s = some .invalidWriteTarget → t.block = s.block)

/-- R42, R100: over any run `tx_out` grows by exactly the bytes of the DATA writes made with TX_EN = 1, in the order of the writes. -/
def Obligations.TxTraceListsTheTransmittedBytesInOrder : Prop :=
  ∀ (k : Nat) (s t : State), run k s = .next t → t.out.tx = s.out.tx ++ transmittedIn (history k s)

/-- R94, its general sentence, which the spec marks as derived from R91 and R93: over any run without a RESET,
what was queued and what was enqueued since is what was popped followed by what is queued now. -/
def Obligations.BytesLeaveInTheOrderTheyArrived : Prop :=
  ∀ (k : Nat) (s t : State), run k s = .next t → (∀ x ∈ history k s, x.2 ≠ .reset) →
    s.block.rxFifo ++ enqueuedIn (history k s) = poppedIn (history k s) ++ t.block.rxFifo

/-- R139's derived sentence: between a STATUS read and the DATA read nothing but a DATA read (or POP_FRONT) or a RESET can remove a queued byte. -/
def Obligations.OnlyADataReadOrAResetRemovesAByte : Prop :=
  ∀ (i : Instr) (s t : State), (∀ n, i ≠ .rdData n) → i ≠ .popFront → i ≠ .reset → exec i s = .next t →
    s.block.rxFifo <+: t.block.rxFifo

/-! The backend. -/

/-- R120: a transport failure has no effect: the byte is offered once and TX_READY asserted whatever the backend answers, and no run of the machine
depends on the backend's answers (R23, decision D15; the supply of answers is the model's, log entry 21). -/
def Obligations.BackendAnswersAreReadByNothing : Prop :=
  (∀ (size : Nat) (value : Word) (s : State) (answers : List Nat),
    s.block.phase = .operating → 1 ≤ size → size ≤ 4 → s.block.control[0] = true →
    ∃ t : State,
      exec (.wrData size value) { s with inp := { s.inp with backendAnswers := answers } } = .next t ∧
      t.out.tx = s.out.tx ++ [value.extractLsb' 0 8] ∧ t.block.status[0] = true) ∧
  (∀ (k : Nat) (s u : State), s.withoutAnswers = u.withoutAnswers → sameButAnswers (run k s) (run k u))

/-! Several agents, and the software side. -/

/-- Litmus P5 of 95_test_vectors.md (R40, R41, R42), for any byte, latch and schedule: a delivery racing a poll has three outcomes. -/
def Obligations.DeliveryRacingAPollHasThreeOutcomes : Prop :=
  ∀ (s : State) (b : Byte) (sched : List Port),
    s.block.phase = .operating → s.block.status = 0b01#2 → s.block.control = 0x2#4 → s.block.rxFifo = [] →
    s.inp =
      { busQueue := [.read 0x04#32 4, .read 0x00#32 4], backendQueue := [.deposit [b]], hostQueue := [],
        internalQueue := [], schedule := sched, backendAnswers := [] } →
    ∃ t : State, run 3 s = .next t ∧ t.out.backendReplies = s.out.backendReplies ++ [1] ∧ t.out.irq = s.out.irq ∧
      ((t.out.busReplies = s.out.busReplies ++ [.value 4 3#32, .value 4 (b.setWidth 32)] ∧
          t.block = { s.block with data := b }) ∨
       (t.out.busReplies = s.out.busReplies ++ [.value 4 1#32, .value 4 (b.setWidth 32)] ∧
          t.block = { s.block with data := b }) ∨
       (t.out.busReplies = s.out.busReplies ++ [.value 4 1#32, .value 4 (s.block.data.setWidth 32)] ∧
          t.block = { s.block with status := 0b11#2, rxFifo := [b] }))

/-- Litmus P5: each of the three outcomes is reached by some schedule (R41: "a model must admit both orders"). -/
def Obligations.DeliveryRacingAPollReachesEachOutcome : Prop :=
  ∀ (s : State) (b : Byte),
    s.block.phase = .operating → s.block.status = 0b01#2 → s.block.control = 0x2#4 → s.block.rxFifo = [] →
    s.inp =
      { busQueue := [.read 0x04#32 4, .read 0x00#32 4], backendQueue := [.deposit [b]], hostQueue := [],
        internalQueue := [], schedule := s.inp.schedule, backendAnswers := [] } →
    ∀ replies ∈
      [[BusReply.value 4 3#32, .value 4 (b.setWidth 32)], [.value 4 1#32, .value 4 (b.setWidth 32)],
       [.value 4 1#32, .value 4 (s.block.data.setWidth 32)]],
      ∃ (sched : List Port) (t : State), run 3 { s with inp := { s.inp with schedule := sched } } = .next t ∧
        t.out.busReplies = s.out.busReplies ++ replies

/-- R31, R6, R33 (decisions D4, D7; log entries 28, 36): on every platform, whatever its IRQ_NUMBER and BYTE_ORDER, an access in the window
becomes the bus transaction at `a − BASE`, and one outside becomes none. -/
def Obligations.SoftwareAccessesReachTheBlockByTheirOffset : Prop :=
  ∀ (p : Config.Platform) (a n : Nat) (v : Word), p.valid →
    (p.base ≤ a → a < p.base + p.windowSize →
      ∃ o : Word, o.toNat = a - p.base ∧ memRead p a n = some (.read o n) ∧ memWrite p a n v = some (.write o n v)) ∧
    (a < p.base ∨ p.base + p.windowSize ≤ a → memRead p a n = none ∧ memWrite p a n v = none)
end

