-- ==== Sys2Proof/Laws/Decode.lean ====
section
/-! SUPPORT. Laws of the decoder: what a bus key selects, that no two exact rows overlap, and that whatever the decoder gives is
well-formed. -/

namespace Sys2Proof

/-- "the key of a bus transaction is numerically `dir·2^32 + offset`" (R53). -/
theorem busKey_toNat (w : Bool) (o : Word) :
    (busKey w o).toNat = (if w then 2 ^ 32 else 0) + o.toNat := by
  have key : (busKey w o).toNat = (if w then 1 else 0) <<< 32 + o.toNat := by
    rw [Nat.shiftLeft_add_eq_or_of_lt o.isLt]
    cases w <;> exact BitVec.toNat_append ..
  rw [key]
  cases w <;> rfl

/-- The low 32 bits of a bus key are the offset. -/
theorem busKey_offset (w : Bool) (o : Word) : (busKey w o).setWidth 32 = o := by
  apply BitVec.eq_of_toNat_eq
  have h := o.isLt
  rw [BitVec.toNat_setWidth, busKey_toNat]
  cases w <;> simp <;> omega

/-- A bus key equals a constant key exactly when their numbers are equal. -/
theorem busKey_beq (w : Bool) (o : Word) (c : Key) :
    (busKey w o == c) = decide ((if w then 2 ^ 32 else 0) + o.toNat = c.toNat) := by
  rw [← busKey_toNat, Bool.eq_iff_iff]
  simp [BitVec.toNat_eq]

theorem selects_exact (op : Op) (c k : Key) : (DecodeRow.mk op c 0xFFFFFFFFF#36).selects k = (k == c) := by
  have h : k &&& 0xFFFFFFFFF#36 = k := BitVec.and_allOnes (x := k)
  simp [DecodeRow.selects, h]

/-- The fallback rows look at the port selector and the direction only. -/
theorem busKey_and_fallback (w : Bool) (o : Word) :
    busKey w o &&& 0xF00000000#36 = (if w then 0x100000000#36 else 0x000000000#36) := by
  have h : busKey w o &&& 0xF00000000#36 =
      ((if w then 1#4 else 0#4) &&& 0xF#4) ++ (o &&& 0#32) := by
    rw [← BitVec.and_append]; rfl
  rw [h, BitVec.and_zero]
  cases w <;> rfl

/-- What a read selects: the dispatch of R54 and R70. -/
theorem selectOp_read (o : Word) :
    selectOp (busKey false o) = some
      (if o = Config.offData then .rdData
       else if o = Config.offStatus then .rdStatus
       else if o = Config.offControl then .rdControl
       else .rdInvalid) := by
  have h := o.isLt
  by_cases h0 : o.toNat = 0
  · rw [show o = 0#32 from BitVec.eq_of_toNat_eq h0]; rfl
  by_cases h4 : o.toNat = 4
  · rw [show o = 4#32 from BitVec.eq_of_toNat_eq h4]; rfl
  by_cases h8 : o.toNat = 8
  · rw [show o = 8#32 from BitVec.eq_of_toNat_eq h8]; rfl
  have hn : exactRows.find? (fun r => r.selects (busKey false o)) = none := by
    rw [List.find?_eq_none]
    simp only [exactRows, List.forall_mem_cons, selects_exact, busKey_beq]
    simp
    omega
  have hf : (fallbackRows.find? (fun r => r.selects (busKey false o))) = fallbackRows[0] := by
    simp [fallbackRows, DecodeRow.selects, busKey_and_fallback]
  simp only [selectOp, hn, hf]
  simp [Config.offData, Config.offStatus, Config.offControl, BitVec.toNat_eq, h0, h4, h8, fallbackRows]

/-- What a write selects: the dispatch of R54 and R70. -/
theorem selectOp_write (o : Word) :
    selectOp (busKey true o) = some
      (if o = Config.offData then .wrData
       else if o = Config.offStatus then .wrStatus
       else if o = Config.offControl then .wrControl
       else .wrInvalid) := by
  have h := o.isLt
  by_cases h0 : o.toNat = 0
  · rw [show o = 0#32 from BitVec.eq_of_toNat_eq h0]; rfl
  by_cases h4 : o.toNat = 4
  · rw [show o = 4#32 from BitVec.eq_of_toNat_eq h4]; rfl
  by_cases h8 : o.toNat = 8
  · rw [show o = 8#32 from BitVec.eq_of_toNat_eq h8]; rfl
  have hn : exactRows.find? (fun r => r.selects (busKey true o)) = none := by
    rw [List.find?_eq_none]
    simp only [exactRows, List.forall_mem_cons, selects_exact, busKey_beq]
    simp
    omega
  have hf : (fallbackRows.find? (fun r => r.selects (busKey true o))) = fallbackRows[1] := by
    simp [fallbackRows, DecodeRow.selects, busKey_and_fallback]
  simp only [selectOp, hn, hf]
  simp [Config.offData, Config.offStatus, Config.offControl, BitVec.toNat_eq, h0, h4, h8, fallbackRows]

/-- A read on the bus port: the row's operation with the transaction's size and offset. -/
theorem decodePort_read (o : Word) (size : Nat) :
    decodePort (.bus (.read o size)) = withLegalSize size
      (if o = Config.offData then .rdData size
       else if o = Config.offStatus then .rdStatus size
       else if o = Config.offControl then .rdControl size
       else .rdInvalid o size) := by
  have hk : decodePort (.bus (.read o size)) =
      match selectOp (busKey false o) with
      | some op => assemble op (keyRequest (busKey false o) size)
      | none => .error .noSuchOperation := rfl
  rw [hk, selectOp_read]
  split_ifs <;> simp [assemble, keyRequest, busKey_offset]

/-- A write on the bus port: the row's operation with the transaction's size, value and offset. -/
theorem decodePort_write (o : Word) (size : Nat) (value : Word) :
    decodePort (.bus (.write o size value)) = withLegalSize size
      (if o = Config.offData then .wrData size value
       else if o = Config.offStatus then .wrStatus size value
       else if o = Config.offControl then .wrControl size value
       else .wrInvalid o size value) := by
  have hk : decodePort (.bus (.write o size value)) =
      match selectOp (busKey true o) with
      | some op => assemble op ⟨busKey true o, size, value, [], 0#8⟩
      | none => .error .noSuchOperation := rfl
  rw [hk, selectOp_write]
  split_ifs <;> simp [assemble, busKey_offset]

/-- No two exact rows select the same key (R53: "(key AND K) = M" with all bits compared). -/
theorem exactRows_disjoint :
    exactRows.Pairwise (fun r q => r.pattern ≠ q.pattern) ∧ exactRows.all (fun r => r.mask == 0xFFFFFFFFF#36) := by
  decide

theorem withLegalSize_of {size : Nat} (h : legalSize size = true) (i : Instr) : withLegalSize size i = .ok i :=
  if_pos h

theorem withLegalSize_ok {size : Nat} {i j : Instr} (h : withLegalSize size i = .ok j) :
    legalSize size = true ∧ j = i := by
  unfold withLegalSize at h
  split at h
  · cases h; exact ⟨‹_›, rfl⟩
  · cases h

/-- What a request on a port decodes to is well-formed. -/
theorem decodePort_wellFormed {r : PortRequest} {i : Instr} (h : decodePort r = .ok i) : i.wellFormed = true := by
  match r with
  | .bus (.read o n) =>
    rw [decodePort_read] at h
    obtain ⟨hl, rfl⟩ := withLegalSize_ok h
    split_ifs <;> simp_all [Instr.wellFormed, isRegisterOffset]
  | .bus (.write o n v) =>
    rw [decodePort_write] at h
    obtain ⟨hl, rfl⟩ := withLegalSize_ok h
    split_ifs <;> simp_all [Instr.wellFormed, isRegisterOffset]
  | .bus (.fetch _ _) => cases h
  | .backend .canAccept | .backend (.deposit _) | .host .reset => cases h; rfl
  | .internal .popFront | .internal (.writeData _) | .internal .raise | .internal .lower => cases h; rfl

end Sys2Proof
end

