-- ==== Sys2Proof/Laws/State.lean ====
section
/-! SUPPORT. One lemma per part of the state per update: the block, the outputs and the inputs after each field update and each
event, all true by rfl, so that no proof unfolds a record update. -/

namespace Sys2Proof.Machine

section Fields

variable (s : State)

@[simp] theorem setData_block (b : Byte) : (s.setData b).block = { s.block with data := b } := rfl
@[simp] theorem setData_out (b : Byte) : (s.setData b).out = s.out := rfl
@[simp] theorem setData_inp (b : Byte) : (s.setData b).inp = s.inp := rfl

@[simp] theorem setStatus_block (v : BitVec 2) : (s.setStatus v).block = { s.block with status := v } := rfl
@[simp] theorem setStatus_out (v : BitVec 2) : (s.setStatus v).out = s.out := rfl
@[simp] theorem setStatus_inp (v : BitVec 2) : (s.setStatus v).inp = s.inp := rfl

@[simp] theorem setControl_block (v : BitVec 4) : (s.setControl v).block = { s.block with control := v } := rfl
@[simp] theorem setControl_out (v : BitVec 4) : (s.setControl v).out = s.out := rfl
@[simp] theorem setControl_inp (v : BitVec 4) : (s.setControl v).inp = s.inp := rfl

@[simp] theorem setRxFifo_block (q : List Byte) : (s.setRxFifo q).block = { s.block with rxFifo := q } := rfl
@[simp] theorem setRxFifo_out (q : List Byte) : (s.setRxFifo q).out = s.out := rfl
@[simp] theorem setRxFifo_inp (q : List Byte) : (s.setRxFifo q).inp = s.inp := rfl

@[simp] theorem setIrqLevel_block (l : Bool) : (s.setIrqLevel l).block = { s.block with irqLevel := l } := rfl
@[simp] theorem setIrqLevel_out (l : Bool) : (s.setIrqLevel l).out = s.out := rfl
@[simp] theorem setIrqLevel_inp (l : Bool) : (s.setIrqLevel l).inp = s.inp := rfl

@[simp] theorem setPhase_block (p : Phase) : (s.setPhase p).block = { s.block with phase := p } := rfl
@[simp] theorem setPhase_out (p : Phase) : (s.setPhase p).out = s.out := rfl
@[simp] theorem setPhase_inp (p : Phase) : (s.setPhase p).inp = s.inp := rfl

@[simp] theorem emitIrq_block (e : IrqEvent) : (s.emitIrq e).block = s.block := rfl
@[simp] theorem emitIrq_out (e : IrqEvent) : (s.emitIrq e).out = { s.out with irq := s.out.irq ++ [e] } := rfl
@[simp] theorem emitIrq_inp (e : IrqEvent) : (s.emitIrq e).inp = s.inp := rfl

@[simp] theorem emitTx_block (b : Byte) : (s.emitTx b).block = s.block := rfl
@[simp] theorem emitTx_out (b : Byte) : (s.emitTx b).out = { s.out with tx := s.out.tx ++ [b] } := rfl
@[simp] theorem emitTx_inp (b : Byte) :
    (s.emitTx b).inp = { s.inp with backendAnswers := s.inp.backendAnswers.tail } := rfl

@[simp] theorem takeAnomaly_block (k : DiagKind) (i : DiagInfo) : (s.takeAnomaly k i).block = s.block := rfl
@[simp] theorem takeAnomaly_out (k : DiagKind) (i : DiagInfo) :
    (s.takeAnomaly k i).out = { s.out with diag := s.out.diag ++ [⟨k, i⟩] } := rfl
@[simp] theorem takeAnomaly_inp (k : DiagKind) (i : DiagInfo) : (s.takeAnomaly k i).inp = s.inp := rfl

@[simp] theorem replyBus_block (r : BusReply) : (s.replyBus r).block = s.block := rfl
@[simp] theorem replyBus_out (r : BusReply) :
    (s.replyBus r).out = { s.out with busReplies := s.out.busReplies ++ [r] } := rfl
@[simp] theorem replyBus_inp (r : BusReply) : (s.replyBus r).inp = s.inp := rfl

@[simp] theorem replyBackend_block (n : Nat) : (s.replyBackend n).block = s.block := rfl
@[simp] theorem replyBackend_out (n : Nat) :
    (s.replyBackend n).out = { s.out with backendReplies := s.out.backendReplies ++ [n] } := rfl
@[simp] theorem replyBackend_inp (n : Nat) : (s.replyBackend n).inp = s.inp := rfl

@[simp] theorem replyInternal_block (r : Option Byte) : (s.replyInternal r).block = s.block := rfl
@[simp] theorem replyInternal_out (r : Option Byte) :
    (s.replyInternal r).out = { s.out with internalReplies := s.out.internalReplies ++ [r] } := rfl
@[simp] theorem replyInternal_inp (r : Option Byte) : (s.replyInternal r).inp = s.inp := rfl

@[simp] theorem takeRequest_block (p : Port) : (s.takeRequest p).block = s.block := rfl
@[simp] theorem takeRequest_out (p : Port) : (s.takeRequest p).out = s.out := rfl
@[simp] theorem takeRequest_inp (p : Port) : (s.takeRequest p).inp = takeFrom s.inp p := rfl

end Fields

/-- Two states are equal when their three parts are. -/
theorem state_ext {s t : State} (hb : s.block = t.block) (ho : s.out = t.out) (hi : s.inp = t.inp) : s = t := by
  cases s; cases t; cases hb; cases ho; cases hi; rfl

end Sys2Proof.Machine
end

