-- ==== Sys2Proof/Laws/Ops.lean ====
section
/-! SUPPORT. One law per shared operation that says everything the operation does to the block, the outputs and the inputs; provers cite
these instead of unfolding the operations. -/

namespace Sys2Proof.Machine

/-! The register bits. -/

@[simp] theorem withTxReady_eq (v : BitVec 2) : withTxReady v = v ||| 0b01#2 := by revert v; decide

@[simp] theorem withRxAvail_eq (v : BitVec 2) : withRxAvail v = v ||| 0b10#2 := by revert v; decide

@[simp] theorem withoutRxAvail_eq (v : BitVec 2) : withoutRxAvail v = v &&& 0b01#2 := by revert v; decide

@[simp] theorem txEn_eq (b : PeripheralState) : b.txEn = b.control[0] := rfl
@[simp] theorem rxEn_eq (b : PeripheralState) : b.rxEn = b.control[1] := rfl
@[simp] theorem txIntEn_eq (b : PeripheralState) : b.txIntEn = b.control[2] := rfl
@[simp] theorem rxIntEn_eq (b : PeripheralState) : b.rxIntEn = b.control[3] := rfl

/-! Operands. -/

/-- A register of at most 8 bits reads as the same number at every legal size (R35). -/
theorem readResult_eq {w : Nat} (hw : w ≤ 8) (size : Nat) (h : 1 ≤ size) (reg : BitVec w) :
    readResult size reg = reg.setWidth 32 := by
  apply BitVec.eq_of_toNat_eq
  have hlt : reg.toNat < 2 ^ 8 := Nat.lt_of_lt_of_le reg.isLt (Nat.pow_le_pow_right (by decide) hw)
  have hsz : 2 ^ 8 ≤ 2 ^ (8 * size) := Nat.pow_le_pow_right (by decide) (by omega)
  have h32 : reg.toNat % 2 ^ 32 = reg.toNat := Nat.mod_eq_of_lt (by omega)
  simp only [readResult, BitVec.toNat_setWidth, h32]
  rw [Nat.mod_eq_of_lt (Nat.lt_of_lt_of_le hlt hsz), h32]

theorem dataOperand_eq (v : Word) : dataOperand v = v.extractLsb' 0 8 := by
  ext i; simp [dataOperand]

theorem controlOperand_eq (v : Word) : controlOperand v = v.extractLsb' 0 4 := by
  ext i hi
  have hm : Config.controlMask.getLsbD i = true := by
    rw [Config.controlMask]
    have : ∀ j : Fin 4, (0xF#32).getLsbD j = true := by decide
    exact this ⟨i, hi⟩
  simp [controlOperand, hm]

/-! The interrupt line. -/

@[simp] theorem raiseLine_block (s : State) : (raiseLine s).block = { s.block with irqLevel := true } := rfl
@[simp] theorem raiseLine_out (s : State) : (raiseLine s).out = { s.out with irq := s.out.irq ++ [.raise] } := rfl
@[simp] theorem raiseLine_inp (s : State) : (raiseLine s).inp = s.inp := rfl

@[simp] theorem lowerLine_block (s : State) : (lowerLine s).block = { s.block with irqLevel := false } := rfl
@[simp] theorem lowerLine_out (s : State) : (lowerLine s).out = { s.out with irq := s.out.irq ++ [.lower] } := rfl
@[simp] theorem lowerLine_inp (s : State) : (lowerLine s).inp = s.inp := rfl

/-! The Receive FIFO. -/

theorem canAccept_eq (s : State) :
    canAccept s = if s.block.control[1] then 16 - s.block.rxFifo.length else 0 := rfl

theorem acceptedCount_le_free (s : State) (bytes : List Byte) :
    acceptedCount s bytes ≤ 16 - s.block.rxFifo.length := by
  unfold acceptedCount; rw [canAccept_eq]; split <;> omega

/-- What a DEPOSIT does to the block; the conditions are the empty-to-non-empty transition of R91. -/
theorem depositBytes_block (s : State) (bytes : List Byte) :
    (depositBytes s bytes).block =
      { s.block with
        rxFifo := s.block.rxFifo ++ bytes.take (acceptedCount s bytes)
        status :=
          if s.block.rxFifo = [] ∧ 0 < acceptedCount s bytes then s.block.status ||| 0b10#2 else s.block.status
        irqLevel :=
          if s.block.rxFifo = [] ∧ 0 < acceptedCount s bytes ∧ s.block.control[3] = true then true
          else s.block.irqLevel } := by
  simp only [depositBytes, Config.logOverrun, Bool.false_and, Bool.false_eq_true, if_false, rxIntEn_eq,
    withRxAvail_eq, setStatus_block, setRxFifo_block, ← and_assoc]
  by_cases h : s.block.rxFifo = [] ∧ 0 < acceptedCount s bytes
  · cases h3 : s.block.control[3] <;> simp [h]
  · simp [h]

/-- What a DEPOSIT emits. -/
theorem depositBytes_out (s : State) (bytes : List Byte) :
    (depositBytes s bytes).out =
      { s.out with
        irq := s.out.irq ++
          (if s.block.rxFifo = [] ∧ 0 < acceptedCount s bytes ∧ s.block.control[3] = true then [.raise]
           else []) } := by
  simp only [depositBytes, Config.logOverrun, Bool.false_and, Bool.false_eq_true, if_false, rxIntEn_eq,
    withRxAvail_eq, setStatus_block, setRxFifo_block, ← and_assoc]
  by_cases h : s.block.rxFifo = [] ∧ 0 < acceptedCount s bytes
  · cases h3 : s.block.control[3] <;> simp [h]
  · simp [h]

@[simp] theorem depositBytes_inp (s : State) (bytes : List Byte) : (depositBytes s bytes).inp = s.inp := by
  simp only [depositBytes, Config.logOverrun, Bool.false_and, Bool.false_eq_true, if_false]
  split
  · split <;> rfl
  · rfl

theorem popFront_nil {s : State} (h : s.block.rxFifo = []) : popFront s = (none, s) := by
  simp [popFront, h]

theorem popFront_cons {s : State} {b : Byte} {rest : List Byte} (h : s.block.rxFifo = b :: rest) :
    popFront s =
      (some b, { s with block :=
        { s.block with
          rxFifo := rest
          status := if rest = [] then s.block.status &&& 0b01#2 else s.block.status } }) := by
  simp only [popFront, h, withoutRxAvail_eq]
  by_cases hr : rest = [] <;> simp [hr, State.setRxFifo, State.setStatus]

theorem readData_nil {s : State} (h : s.block.rxFifo = []) : readData s = s := by
  simp [readData, popFront_nil h]

theorem readData_cons {s : State} {b : Byte} {rest : List Byte} (h : s.block.rxFifo = b :: rest) :
    readData s =
      { s with block :=
        { s.block with
          data := b
          rxFifo := rest
          status := if rest = [] then s.block.status &&& 0b01#2 else s.block.status } } := by
  simp [readData, popFront_cons h, State.setData]

/-- A DATA read touches the block only. -/
@[simp] theorem readData_out (s : State) : (readData s).out = s.out := by
  cases h : s.block.rxFifo with
  | nil => rw [readData_nil h]
  | cons b rest => rw [readData_cons h]

@[simp] theorem readData_inp (s : State) : (readData s).inp = s.inp := by
  cases h : s.block.rxFifo with
  | nil => rw [readData_nil h]
  | cons b rest => rw [readData_cons h]

/-! The Transmit Path. -/

theorem transmitByte_disabled {s : State} (h : s.block.control[0] = false) (b : Byte) :
    transmitByte s b = s := by
  simp only [transmitByte, latchesWrite, Config.dataWriteLatch, txEn_eq, h]
  simp

theorem transmitByte_enabled {s : State} (h : s.block.control[0] = true) (b : Byte) :
    transmitByte s b =
      { block :=
          { s.block with
            data := b
            status := s.block.status ||| 0b01#2
            irqLevel := s.block.control[2] || s.block.irqLevel }
        out :=
          { s.out with
            tx := s.out.tx ++ [b]
            irq := s.out.irq ++ (if s.block.control[2] then [.raise] else []) }
        inp := { s.inp with backendAnswers := s.inp.backendAnswers.tail } } := by
  simp only [transmitByte, latchesWrite, Config.dataWriteLatch, txEn_eq, h]
  cases h2 : s.block.control[2] <;> apply state_ext <;> simp [h2]

/-! Reset. -/

theorem resetBlock_eq (s : State) :
    resetBlock s =
      { block :=
          { data := 0x00#8, status := 0b01#2, control := 0x0#4, rxFifo := [], irqLevel := false,
            phase := .operating }
        out := { s.out with irq := s.out.irq ++ [.lower] }
        inp := s.inp } := rfl

/-! The guards. -/

theorem legalSize_iff (size : Nat) : legalSize size = true ↔ 1 ≤ size ∧ size ≤ 4 := by
  exact decide_eq_true_iff

theorem whenOperating_next_iff {s t u : State} :
    whenOperating s t = .next u ↔ s.block.phase = .operating ∧ u = t := by
  unfold whenOperating
  by_cases h : s.block.phase = .operating <;> simp [h, eq_comm]

theorem busAccess_next_iff {s t u : State} {size : Nat} :
    busAccess s size t = .next u ↔ s.block.phase = .operating ∧ (1 ≤ size ∧ size ≤ 4) ∧ u = t := by
  unfold busAccess
  rw [← legalSize_iff]
  by_cases h : s.block.phase = .operating <;> by_cases hl : legalSize size = true <;> simp [h, hl, eq_comm]

/-! The ports. -/

/-- The request taken next waits at the front of its port. -/
theorem nextRequest_front {inp : Inputs} {p : Port} {r : PortRequest} (h : nextRequest inp = some (p, r)) :
    frontRequest inp p = some r := by
  obtain ⟨q, -, hq⟩ := List.exists_of_findSome?_eq_some h
  cases hf : frontRequest inp q with
  | none => simp [hf] at hq
  | some r' => simp [hf] at hq; obtain ⟨rfl, rfl⟩ := hq; exact hf

/-- The schedule's first port is served if a request waits there. -/
theorem nextRequest_scheduled {inp : Inputs} {p : Port} {ps : List Port} {r : PortRequest}
    (hs : inp.schedule = p :: ps) (hf : frontRequest inp p = some r) : nextRequest inp = some (p, r) := by
  simp [nextRequest, hs, hf]

/-- No request is taken exactly when none waits at any port. -/
theorem nextRequest_none_iff (inp : Inputs) :
    nextRequest inp = none ↔
      inp.busQueue = [] ∧ inp.backendQueue = [] ∧ inp.hostQueue = [] ∧ inp.internalQueue = [] := by
  constructor
  · intro h
    simp only [nextRequest, List.findSome?_eq_none_iff] at h
    have key : ∀ p ∈ defaultOrder, frontRequest inp p = none := fun p hp => by
      simpa using h p (List.mem_append_right _ hp)
    exact ⟨by simpa [frontRequest] using key .bus (by decide), by simpa [frontRequest] using key .backend (by decide),
      by simpa [frontRequest] using key .host (by decide), by simpa [frontRequest] using key .internal (by decide)⟩
  · rintro ⟨h1, h2, h3, h4⟩
    simp only [nextRequest, List.findSome?_eq_none_iff]
    intro p _
    cases p <;> simp [frontRequest, h1, h2, h3, h4]

/-- A request placed at the front of its port is the one taken next, and taking it gives back the inputs. -/
theorem nextRequest_placeRequest (inp : Inputs) (r : PortRequest) :
    ∃ p, nextRequest (placeRequest inp r) = some (p, r) ∧ takeFrom (placeRequest inp r) p = inp := by
  cases r with
  | bus b => exact ⟨.bus, nextRequest_scheduled rfl rfl, rfl⟩
  | backend b => exact ⟨.backend, nextRequest_scheduled rfl rfl, rfl⟩
  | host b => exact ⟨.host, nextRequest_scheduled rfl rfl, rfl⟩
  | internal b => exact ⟨.internal, nextRequest_scheduled rfl rfl, rfl⟩

/-! The software side. -/

/-- What a software access becomes is the same for every `OFFSET_WIDTH`, `IRQ_NUMBER` and `BYTE_ORDER` (R6: "No rule of this spec depends on
the value of an `OPEN` parameter"; R33). -/
theorem softwareAccess_congr {p q : Config.Platform} (hb : p.base = q.base) (hw : p.windowSize = q.windowSize) (a n : Nat) (v : Word) :
    memRead p a n = memRead q a n ∧ memWrite p a n v = memWrite q a n v := by
  simp only [memRead, memWrite, windowOffset, hb, hw, and_self]

end Sys2Proof.Machine
end

