-- ==== Sys2Proof/Laws/PerInstr.lean ====
section
/-! SUPPORT. Statements made per operation: the two round trips of the encoders, through the raw request with its key (R53) and
through the request on a port (R51). -/

namespace Sys2Proof.Laws.RoundTrip

/-- Decoding what the encoders write for a well-formed operation gives it back, with every operand. -/
def Statement (i : Instr) : Prop :=
  i.wellFormed = true → decode (encode i) = .ok i ∧ decodePort (portRequestOf i) = .ok i

theorem rdData (size : Nat) : Statement (.rdData size) := by
  intro h
  have hp : decodePort (.bus (.read Config.offData size)) = .ok (.rdData size) := by
    rw [decodePort_read]
    exact withLegalSize_of h _
  exact ⟨hp, hp⟩

theorem rdStatus (size : Nat) : Statement (.rdStatus size) := by
  intro h
  have hp : decodePort (.bus (.read Config.offStatus size)) = .ok (.rdStatus size) := by
    rw [decodePort_read]
    exact withLegalSize_of h _
  exact ⟨hp, hp⟩

theorem rdControl (size : Nat) : Statement (.rdControl size) := by
  intro h
  have hp : decodePort (.bus (.read Config.offControl size)) = .ok (.rdControl size) := by
    rw [decodePort_read]
    exact withLegalSize_of h _
  exact ⟨hp, hp⟩

theorem rdInvalid (offset : Word) (size : Nat) : Statement (.rdInvalid offset size) := by
  intro h
  simp only [Instr.wellFormed, isRegisterOffset, Bool.and_eq_true, Bool.not_eq_true', Bool.or_eq_false_iff,
    beq_eq_false_iff_ne] at h
  have hp : decodePort (.bus (.read offset size)) = .ok (.rdInvalid offset size) := by
    rw [decodePort_read, if_neg h.1.1.1, if_neg h.1.1.2, if_neg h.1.2]
    exact if_pos h.2
  exact ⟨hp, hp⟩

theorem wrData (size : Nat) (value : Word) : Statement (.wrData size value) := by
  intro h
  have hp : decodePort (.bus (.write Config.offData size value)) = .ok (.wrData size value) := by
    rw [decodePort_write]
    exact withLegalSize_of h _
  exact ⟨hp, hp⟩

theorem wrStatus (size : Nat) (value : Word) : Statement (.wrStatus size value) := by
  intro h
  have hp : decodePort (.bus (.write Config.offStatus size value)) = .ok (.wrStatus size value) := by
    rw [decodePort_write]
    exact withLegalSize_of h _
  exact ⟨hp, hp⟩

theorem wrControl (size : Nat) (value : Word) : Statement (.wrControl size value) := by
  intro h
  have hp : decodePort (.bus (.write Config.offControl size value)) = .ok (.wrControl size value) := by
    rw [decodePort_write]
    exact withLegalSize_of h _
  exact ⟨hp, hp⟩

theorem wrInvalid (offset : Word) (size : Nat) (value : Word) : Statement (.wrInvalid offset size value) := by
  intro h
  simp only [Instr.wellFormed, isRegisterOffset, Bool.and_eq_true, Bool.not_eq_true', Bool.or_eq_false_iff,
    beq_eq_false_iff_ne] at h
  have hp : decodePort (.bus (.write offset size value)) = .ok (.wrInvalid offset size value) := by
    rw [decodePort_write, if_neg h.1.1.1, if_neg h.1.1.2, if_neg h.1.2]
    exact if_pos h.2
  exact ⟨hp, hp⟩

theorem canAccept : Statement .canAccept := fun _ => ⟨rfl, rfl⟩

theorem deposit (bytes : List Byte) : Statement (.deposit bytes) := by
  have hs : selectOp 0x200000001#36 = some .deposit := by decide
  exact fun _ => ⟨by simp [decode, encode, keyRequest, hs, assemble], rfl⟩

theorem reset : Statement .reset := fun _ => ⟨rfl, rfl⟩

theorem popFront : Statement .popFront := fun _ => ⟨rfl, rfl⟩

theorem writeData (b : Byte) : Statement (.writeData b) := by
  have hs : selectOp 0x600000001#36 = some .writeData := by decide
  exact fun _ => ⟨by simp [decode, encode, keyRequest, hs, assemble], rfl⟩

theorem raise : Statement .raise := fun _ => ⟨rfl, rfl⟩

theorem lower : Statement .lower := fun _ => ⟨rfl, rfl⟩

end Sys2Proof.Laws.RoundTrip
end

