-- ==== Sys2Proof/Laws/Step.lean ====
section
/-! SUPPORT. What an operation and a step can do, said once: the inversion of `exec` and of `step`, and the induction over runs. -/

namespace Sys2Proof.Machine

/-- The state an operation leaves, whatever its guards: the phase and the size are looked at by `exec_next_iff`. -/
def effect (s : State) : Instr → State
  | .rdData size => (readData s).replyBus (.value size (readResult size (readData s).block.data))
  | .rdStatus size => s.replyBus (.value size (readResult size s.block.status))
  | .rdControl size => s.replyBus (.value size (readResult size s.block.control))
  | .rdInvalid offset size =>
    (s.takeAnomaly .invalidAddress (.readAccess offset size)).replyBus (.value size 0#32)
  | .wrData _ value => (transmitByte s (dataOperand value)).replyBus .done
  | .wrStatus size value =>
    (s.takeAnomaly .invalidWriteTarget (.writeAccess Config.offStatus size value)).replyBus .done
  | .wrControl _ value => (s.setControl (controlOperand value)).replyBus .done
  | .wrInvalid offset size value =>
    (s.takeAnomaly .invalidAddress (.writeAccess offset size value)).replyBus .done
  | .canAccept => s.replyBackend (canAccept s)
  | .deposit bytes => (depositBytes s bytes).replyBackend (acceptedCount s bytes)
  | .reset => resetBlock s
  | .popFront => (popFront s).2.replyInternal (popFront s).1
  | .writeData b => transmitByte s b
  | .raise => raiseLine s
  | .lower => lowerLine s

/-- The access size of a bus operation. -/
def accessSize : Instr → Option Nat
  | .rdData n | .rdStatus n | .rdControl n | .rdInvalid _ n => some n
  | .wrData n _ | .wrStatus n _ | .wrControl n _ | .wrInvalid _ n _ => some n
  | .canAccept | .deposit _ | .reset | .popFront | .writeData _ | .raise | .lower => none

/-- EVERYTHING AN OPERATION CAN DO when it answers a next state: it runs in phase OPERATING (or is RESET), its size is legal, and the
state it leaves is its effect. -/
theorem exec_next_iff {i : Instr} {s t : State} :
    exec i s = .next t ↔
      (i = .reset ∨ s.block.phase = .operating) ∧ (∀ n, accessSize i = some n → 1 ≤ n ∧ n ≤ 4) ∧ t = effect s i := by
  cases i with
  | reset => simp [exec, execReset, accessSize, effect, eq_comm]
  | rdData n => simp [exec, execRdData, busAccess_next_iff, accessSize, effect]
  | rdStatus n => simp [exec, execRdStatus, busAccess_next_iff, accessSize, effect]
  | rdControl n => simp [exec, execRdControl, busAccess_next_iff, accessSize, effect]
  | rdInvalid o n => simp [exec, execRdInvalid, busAccess_next_iff, accessSize, effect]
  | wrData n v => simp [exec, execWrData, busAccess_next_iff, accessSize, effect]
  | wrStatus n v => simp [exec, execWrStatus, busAccess_next_iff, accessSize, effect]
  | wrControl n v => simp [exec, execWrControl, busAccess_next_iff, accessSize, effect]
  | wrInvalid o n v => simp [exec, execWrInvalid, busAccess_next_iff, accessSize, effect]
  | canAccept => simp [exec, execCanAccept, whenOperating_next_iff, accessSize, effect]
  | deposit bytes => simp [exec, execDeposit, whenOperating_next_iff, accessSize, effect]
  | popFront => simp [exec, execPopFront, whenOperating_next_iff, accessSize, effect]
  | writeData b => simp [exec, execWriteData, whenOperating_next_iff, accessSize, effect]
  | raise => simp [exec, execRaise, whenOperating_next_iff, accessSize, effect]
  | lower => simp [exec, execLower, whenOperating_next_iff, accessSize, effect]

/-- No operation but RESET changes the phase (R137). -/
theorem effect_phase {i : Instr} {s : State} (h : i ≠ .reset) : (effect s i).block.phase = s.block.phase := by
  cases i with
  | reset => exact absurd rfl h
  | rdData n =>
    cases hf : s.block.rxFifo with
    | nil => simp [effect, readData_nil hf]
    | cons b r => simp [effect, readData_cons hf]
  | wrData n v =>
    cases h0 : s.block.control[0] <;> simp [effect, transmitByte_disabled, transmitByte_enabled, h0]
  | writeData b =>
    cases h0 : s.block.control[0] <;> simp [effect, transmitByte_disabled, transmitByte_enabled, h0]
  | popFront =>
    cases hf : s.block.rxFifo with
    | nil => simp [effect, popFront_nil hf]
    | cons b r => simp [effect, popFront_cons hf]
  | deposit bytes => simp [effect, depositBytes_block]
  | rdStatus _ | rdControl _ | rdInvalid _ _ | wrStatus _ _ | wrControl _ _ | wrInvalid _ _ _ => simp [effect]
  | canAccept | raise | lower => simp [effect]

/-- No operation changes what the agents have yet to request; a transmit event uses up one of the backend's answers. -/
theorem effect_inp (s : State) (i : Instr) :
    ∃ answers, (effect s i).inp = { s.inp with backendAnswers := answers } := by
  cases i with
  | wrData n v =>
    cases h0 : s.block.control[0]
    · exact ⟨s.inp.backendAnswers, by simp [effect, transmitByte_disabled, h0]⟩
    · exact ⟨s.inp.backendAnswers.tail, by simp [effect, transmitByte_enabled, h0]⟩
  | writeData v =>
    cases h0 : s.block.control[0]
    · exact ⟨s.inp.backendAnswers, by simp [effect, transmitByte_disabled, h0]⟩
    · exact ⟨s.inp.backendAnswers.tail, by simp [effect, transmitByte_enabled, h0]⟩
  | popFront =>
    refine ⟨s.inp.backendAnswers, ?_⟩
    cases hf : s.block.rxFifo with
    | nil => simp [effect, popFront_nil hf]
    | cons b r => simp [effect, popFront_cons hf]
  | reset => exact ⟨s.inp.backendAnswers, by simp [effect, resetBlock_eq]⟩
  | rdData _ | rdStatus _ | rdControl _ | rdInvalid _ _ | wrStatus _ _ | wrControl _ _ | wrInvalid _ _ _ =>
    exact ⟨s.inp.backendAnswers, by simp [effect]⟩
  | canAccept | deposit _ | raise | lower => exact ⟨s.inp.backendAnswers, by simp [effect]⟩

/-- EVERYTHING A STEP CAN DO when it answers a next state: nothing, or one operation of a request that waited. -/
theorem step_cases {s t : State} (h : step s = .next t) :
    (nextRequest s.inp = none ∧ nextInstr s = none ∧ t = s) ∨
    (∃ p r i, nextRequest s.inp = some (p, r) ∧ decodePort r = .ok i ∧ nextInstr s = some i ∧
      exec i (s.takeRequest p) = .next t) := by
  unfold step at h
  unfold nextInstr
  cases hn : nextRequest s.inp with
  | none => rw [hn] at h; cases h; exact .inl ⟨rfl, rfl, rfl⟩
  | some pr =>
    obtain ⟨p, r⟩ := pr
    rw [hn] at h
    cases hd : decodePort r with
    | error e => simp [hd] at h
    | ok i =>
      simp only [hd] at h
      exact .inr ⟨p, r, i, rfl, hd, by simp [hd], h⟩

@[simp] theorem run_zero (s : State) : run 0 s = .next s := rfl

/-- One step of the host's run, for any machine. -/
theorem core_run_succ (M : Host.Core) (k : Nat) (s : M.State) :
    M.run (k + 1) s =
      match M.step s with
      | .next t => M.run k t
      | .fault r => .fault r
      | .refused r => .refused r := rfl

/-- A run is the host's run of this machine. -/
theorem run_eq_core_run (k : Nat) (s : State) : run k s = Host.Core.run Sys2Proof.core k s := by
  induction k generalizing s with
  | zero => rfl
  | succ k ih =>
    refine Eq.trans ?_ (core_run_succ Sys2Proof.core k s).symm
    simp only [run, ih]
    have hs : Sys2Proof.core.step s = step s := rfl
    revert hs
    generalize Sys2Proof.core.step s = o
    rintro rfl
    cases step s <;> rfl

/-- A run of `k + 1` steps that goes through is one step and a run of `k` steps. -/
theorem run_succ_next {k : Nat} {s t : State} (h : run (k + 1) s = .next t) :
    ∃ u, step s = .next u ∧ run k u = .next t := by
  rw [run] at h
  cases hs : step s with
  | next u => rw [hs] at h; exact ⟨u, rfl, h⟩
  | fault f => cases f
  | refused r => rw [hs] at h; cases h

theorem history_succ {k : Nat} {s u : State} (h : step s = .next u) :
    history (k + 1) s = ((nextInstr s).map (fun i => (s, i))).toList ++ history k u := by
  simp [history, h]

/-- THE INDUCTION OVER RUNS, once: what every step keeps, every run keeps. -/
theorem run_keeps {P : State → Prop} (hP : ∀ s t, P s → step s = .next t → P t) :
    ∀ (k : Nat) (s t : State), P s → run k s = .next t → P t := by
  intro k
  induction k with
  | zero => intro s t hs h; cases h; exact hs
  | succ k ih =>
    intro s t hs h
    obtain ⟨u, hu, hk⟩ := run_succ_next h
    exact ih u t (hP s u hs hu) hk

/-- A request placed at the front of its port is the next step's, on the state it was placed in. -/
theorem step_placeRequest (s : State) {r : PortRequest} {i : Instr} (h : decodePort r = .ok i) :
    step { s with inp := placeRequest s.inp r } = exec i s := by
  obtain ⟨p, hn, ht⟩ := nextRequest_placeRequest s.inp r
  unfold step
  simp only [hn, h]
  rw [show State.takeRequest { s with inp := placeRequest s.inp r } p = s from
    state_ext rfl rfl ht]

end Sys2Proof.Machine
end

