-- ==== Sys2Proof/Tests/Slice0.lean ====
section
/-! SUPPORT. The model's own tests: ill-formed operations are refused, words of the decode table decode to their operations, single
operations give the results of spec/95_test_vectors.md, and every statement's hypotheses are met by a concrete state. -/

namespace Sys2Proof.Tests

open Sys2Proof Sys2Proof.Machine

/-- The state `(data, status, control, fifo, irq)` of 95_test_vectors.md, with empty traces and nothing pending. -/
def st (data : Byte) (status : BitVec 2) (control : BitVec 4) (fifo : List Byte) (irq : Bool) : State :=
  { block := { data := data, status := status, control := control, rxFifo := fifo, irqLevel := irq, phase := .operating }
    out := { State.reset.out with irq := [] }
    inp := Inputs.empty }

/-- The next state of an outcome. -/
def nextOf : Host.Outcome State Fault Refusal → Option State
  | .next t => some t
  | .fault _ => none
  | .refused _ => none

/-- The refusal of an outcome. -/
def refusalIn : Host.Outcome State Fault Refusal → Option Refusal
  | .next _ => none
  | .fault _ => none
  | .refused r => some r

/-- PeripheralState after an operation. -/
def blockAfter (i : Instr) (s : State) : Option PeripheralState := (nextOf (exec i s)).map State.block

/-- The outputs after an operation. -/
def outAfter (i : Instr) (s : State) : Option Outputs := (nextOf (exec i s)).map State.out

/-- The last answer on the bus port after an operation. -/
def replyAfter (i : Instr) (s : State) : Option BusReply := (outAfter i s).bind (fun o => o.busReplies.getLast?)

/-! WellFormed: an ill-formed operation for each check (R35, R54). -/

theorem test_size_zero_illFormed : (Instr.rdData 0).wellFormed = false := by decide
theorem test_size_five_illFormed : (Instr.rdStatus 5).wellFormed = false := by decide
theorem test_rdControl_size_illFormed : (Instr.rdControl 8).wellFormed = false := by decide
theorem test_wrData_size_illFormed : (Instr.wrData 0 0#32).wellFormed = false := by decide
theorem test_wrStatus_size_illFormed : (Instr.wrStatus 5 0#32).wellFormed = false := by decide
theorem test_wrControl_size_illFormed : (Instr.wrControl 8 0#32).wellFormed = false := by decide
theorem test_rdInvalid_register_illFormed : (Instr.rdInvalid 0x04#32 4).wellFormed = false := by decide
theorem test_rdInvalid_size_illFormed : (Instr.rdInvalid 0x0C#32 0).wellFormed = false := by decide
theorem test_wrInvalid_register_illFormed : (Instr.wrInvalid 0x00#32 4 0#32).wellFormed = false := by decide
theorem test_wrInvalid_size_illFormed : (Instr.wrInvalid 0x0C#32 5 0#32).wellFormed = false := by decide
theorem test_sizes_wellFormed :
    [1, 2, 3, 4].all (fun n => (Instr.rdData n).wellFormed && (Instr.wrInvalid 0x09#32 n 0#32).wellFormed) = true := by
  decide

/-! Decode: keys written out from R53 and the vectors V-DC1 to V-DC14 and the table. -/

/-- The decoder's answer to a key with access size 2, value 0x55, bytes [0x31] and byte 0x41. -/
def decodeKey (key : Key) : Option Instr :=
  match decode { key := key, size := 2, value := 0x55#32, bytes := [0x31#8], byte := 0x41#8 } with
  | .ok i => some i
  | .error _ => none

theorem test_decode_rdData : decodeKey 0b0000_00000000000000000000000000000000#36 = some (.rdData 2) := by decide
theorem test_decode_rdStatus : decodeKey 0b0000_00000000000000000000000000000100#36 = some (.rdStatus 2) := by decide
theorem test_decode_rdControl : decodeKey 0b0000_00000000000000000000000000001000#36 = some (.rdControl 2) := by decide
theorem test_decode_rdInvalid : decodeKey 0b0000_00000000000000000000000100000000#36 = some (.rdInvalid 0x100#32 2) := by decide
theorem test_decode_wrData : decodeKey 0b0001_00000000000000000000000000000000#36 = some (.wrData 2 0x55#32) := by decide
theorem test_decode_wrStatus : decodeKey 0b0001_00000000000000000000000000000100#36 = some (.wrStatus 2 0x55#32) := by decide
theorem test_decode_wrControl : decodeKey 0b0001_00000000000000000000000000001000#36 = some (.wrControl 2 0x55#32) := by decide
theorem test_decode_wrInvalid : decodeKey 0b0001_11111111111111111111111111111100#36 = some (.wrInvalid 0xFFFFFFFC#32 2 0x55#32) := by decide
theorem test_decode_canAccept : decodeKey 0b0010_00000000000000000000000000000000#36 = some .canAccept := by decide
theorem test_decode_deposit : decodeKey 0b0010_00000000000000000000000000000001#36 = some (.deposit [0x31#8]) := by decide
theorem test_decode_reset : decodeKey 0b0100_00000000000000000000000000000000#36 = some .reset := by decide
theorem test_decode_popFront : decodeKey 0b0110_00000000000000000000000000000000#36 = some .popFront := by decide
theorem test_decode_writeData : decodeKey 0b0110_00000000000000000000000000000001#36 = some (.writeData 0x41#8) := by decide
theorem test_decode_raise : decodeKey 0b0110_00000000000000000000000000000010#36 = some .raise := by decide
theorem test_decode_lower : decodeKey 0b0110_00000000000000000000000000000011#36 = some .lower := by decide
theorem test_decode_unlisted_labels_rejected :
    [0x200000002#36, 0x300000000#36, 0x400000001#36, 0x500000000#36, 0x600000004#36, 0x800000000#36].all
      (fun k => decodeKey k == none) = true := by decide
theorem test_decode_unaligned_offsets :
    [0x01#32, 0x02#32, 0x03#32, 0x05#32, 0x06#32, 0x07#32, 0x09#32, 0x0A#32, 0x0B#32, 0x0C#32].all
      (fun o => decodeKey (busKey false o) == some (.rdInvalid o 2)) = true := by decide
theorem test_decode_size_zero_rejected :
    decode (keyRequest 0x000000000#36 0) = .error .illegalSize ∧ decode (keyRequest 0x100000008#36 5) = .error .illegalSize :=
  ⟨rfl, rfl⟩

/-! Single operations, at most two tests each. -/

-- V-RD1
theorem test_rdData_pops : blockAfter (.rdData 4) (st 0x00 0b11 0x2 [0x48, 0x49] false) =
    some { data := 0x48, status := 0b11, control := 0x2, rxFifo := [0x49], irqLevel := false, phase := .operating } := by
  decide
-- T8, V-RD3: the third read returns the latch
theorem test_rdData_empty : replyAfter (.rdData 4) (st 0x49 0b01 0x2 [] false) = some (.value 4 0x00000049) ∧
    blockAfter (.rdData 4) (st 0x49 0b01 0x2 [] false) = some (st 0x49 0b01 0x2 [] false).block := by decide
-- V-RD11
theorem test_rdStatus : replyAfter (.rdStatus 1) (st 0x00 0b11 0x2 [0x48] false) = some (.value 1 0x03) := by decide
-- V-RD12
theorem test_rdControl : replyAfter (.rdControl 4) (st 0x00 0b01 0xA [] false) = some (.value 4 0x0000000A) := by decide
-- V-RD13, T9
theorem test_rdInvalid : replyAfter (.rdInvalid 0x0C 4) (st 0x49 0b11 0xA [0x11] true) = some (.value 4 0) ∧
    (outAfter (.rdInvalid 0x0C 4) (st 0x49 0b11 0xA [0x11] true)).map Outputs.diag =
      some [⟨.invalidAddress, .readAccess 0x0C 4⟩] := by decide
-- V-WR13
theorem test_wrData_transmits : blockAfter (.wrData 4 0x00000141) (st 0x00 0b01 0x5 [] false) =
      some (st 0x41 0b01 0x5 [] true).block ∧
    (outAfter (.wrData 4 0x00000141) (st 0x00 0b01 0x5 [] false)).map (fun o => (o.tx, o.irq)) =
      some ([0x41], [.raise]) := by decide
-- T5, V-WR15
theorem test_wrData_gated : (outAfter (.wrData 4 0x00000041) (st 0x00 0b01 0x4 [] false)).map (fun o => (o.tx, o.irq)) =
      some ([], []) ∧
    blockAfter (.wrData 4 0x00000041) (st 0x00 0b01 0x4 [] false) = some (st 0x00 0b01 0x4 [] false).block := by decide
-- V-WR9
theorem test_wrStatus : blockAfter (.wrStatus 4 0x00000000) (st 0x00 0b11 0x2 [0x48] false) =
      some (st 0x00 0b11 0x2 [0x48] false).block ∧
    (outAfter (.wrStatus 4 0x00000000) (st 0x00 0b11 0x2 [0x48] false)).map (fun o => o.diag.map DiagEvent.kind) =
      some [.invalidWriteTarget] := by decide
-- V-WR2
theorem test_wrControl_masks : blockAfter (.wrControl 4 0xFFFFFFFF) State.reset = some (st 0x00 0b01 0xF [] false).block := by
  decide
-- V-WR6
theorem test_wrControl_keeps_line : blockAfter (.wrControl 4 0x00000000) (st 0x31 0b01 0xA [] true) =
    some (st 0x31 0b01 0x0 [] true).block := by decide
-- V-WR11
theorem test_wrInvalid : blockAfter (.wrInvalid 0x09 1 0x0F) (st 0x00 0b01 0x3 [] false) =
      some (st 0x00 0b01 0x3 [] false).block ∧
    (outAfter (.wrInvalid 0x09 1 0x0F) (st 0x00 0b01 0x3 [] false)).map (fun o => o.diag.map DiagEvent.kind) =
      some [.invalidAddress] := by decide
-- V-FF3, V-FF5
theorem test_canAccept : (outAfter .canAccept (st 0x00 0b11 0x2 [1, 2, 3, 4, 5] false)).map Outputs.backendReplies = some [11] ∧
    (outAfter .canAccept (st 0x00 0b11 0x0 [1, 2, 3, 4, 5] false)).map Outputs.backendReplies = some [0] := by decide
-- T3, V-FF9: twenty bytes into an empty FIFO
theorem test_deposit_bound :
    (nextOf (exec (.deposit ((List.range 20).map (BitVec.ofNat 8))) (st 0x00 0b01 0x2 [] false))).map
      (fun t => (t.block.rxFifo, t.out.backendReplies)) = some ((List.range 16).map (BitVec.ofNat 8), [16]) := by decide
-- V-FF8, V-FF14
theorem test_deposit_interrupt_edge :
    (nextOf (exec (.deposit [0x61, 0x62, 0x63]) (st 0x00 0b01 0xA [] false))).map
      (fun t => (t.block, t.out.irq)) = some ((st 0x00 0b11 0xA [0x61, 0x62, 0x63] true).block, [.raise]) ∧
    (nextOf (exec (.deposit [0x32]) (st 0x00 0b11 0xA [0x31] true))).map
      (fun t => (t.block, t.out.irq)) = some ((st 0x00 0b11 0xA [0x31, 0x32] true).block, []) := by decide
-- T1, V-RS1
theorem test_reset : blockAfter .reset (st 0x49 0b11 0xF [0x01, 0x02] true) = some State.reset.block ∧
    nextOf (exec .reset State.attached) = some State.reset := by decide
-- V-FF16
theorem test_popFront : (nextOf (exec .popFront (st 0x00 0b11 0x2 [0x62] false))).map
    (fun t => (t.block, t.out.internalReplies)) = some ((st 0x00 0b01 0x2 [] false).block, [some 0x62]) := by decide
-- V-TX2
theorem test_writeData : (nextOf (exec (.writeData 0xFF) (st 0x00 0b01 0x7 [] false))).map
    (fun t => (t.block, t.out.tx, t.out.irq)) = some ((st 0xFF 0b01 0x7 [] true).block, [0xFF], [.raise]) := by decide
-- R105's and R106's examples
theorem test_raise : blockAfter .raise (st 0x00 0b01 0x0 [] false) = some (st 0x00 0b01 0x0 [] true).block := by decide
theorem test_lower : blockAfter .lower (st 0x00 0b01 0x0 [] true) = some (st 0x00 0b01 0x0 [] false).block := by decide
-- V-RS5
theorem test_refused_before_reset : refusalIn (exec (.rdData 4) State.attached) = some .beforeFirstReset := by decide
-- decision D5
theorem test_refused_size : refusalIn (exec (.rdData 8) State.reset) = some .illegalSize := by decide

/-! Steps. -/

/-- A word of the table placed in the launch state is what the next step runs. -/
theorem test_withFetchWord_runs :
    nextOf (step (State.reset.withFetchWord 40 0x000000004)) = nextOf (exec (.rdStatus 4) State.reset) ∧
    nextOf (step (State.reset.withFetchWord 40 0x200000001)) = nextOf (exec (.deposit []) State.reset) ∧
    nextOf (step (State.reset.withFetchWord 40 0x600000002)) = nextOf (exec .raise State.reset) := by decide

/-- R31, R60: the load at BASE + 8 is the CONTROL read, and PUTC is a STATUS poll and a DATA write. -/
theorem test_software : memRead ⟨0x1000, 0x10, 4, 0, .little⟩ 0x1008 4 = some (.read 0x08 4) ∧ memRead ⟨0x1000, 0x10, 4, 0, .little⟩ 0x1010 4 = none ∧
    putc 0x41 = [.read 0x04 4, .write 0x00 4 0x00000041] ∧ getcNext 0x3 = [.read 0x00 4] ∧ getcNext 0x1 = [] := by decide

/-! Witnesses: the hypotheses of each statement that has some, met together. -/

theorem witness_LaunchStateIsTheStateAfterTheFirstReset : State.attached.block.phase = .uninitialized := by decide

theorem witness_OnlyResetRunsBeforeTheFirstReset :
    State.attached.block.phase = .uninitialized ∧ Instr.rdData 1 ≠ .reset ∧ Instr.lower ≠ .reset := by decide

theorem witness_NoStepLeavesPhaseOperating :
    (State.reset.withFetchWord 40 0x400000000).block.phase = .operating ∧
    ∃ t, step (State.reset.withFetchWord 40 0x400000000) = .next t := ⟨by decide, _, rfl⟩

theorem witness_RdDataPopsTheFrontByte :
    (st 0x00 0b11 0x2 [0x48, 0x49] false).block.phase = .operating ∧
    (st 0x00 0b11 0x2 [0x48, 0x49] false).block.rxFifo = 0x48 :: [0x49] ∧
    (st 0x00 0b11 0x0 [0x49] true).block.phase = .operating ∧ (st 0x00 0b11 0x0 [0x49] true).block.rxFifo = 0x49 :: [] ∧
    1 ≤ 1 ∧ 1 ≤ 4 ∧ 4 ≤ 4 := by decide

theorem witness_RdDataOnAnEmptyFifoReturnsTheLatch :
    (st 0x49 0b01 0x2 [] false).block.phase = .operating ∧ (st 0x49 0b01 0x2 [] false).block.rxFifo = [] ∧ 1 ≤ 4 ∧ 4 ≤ 4 := by
  decide

/-- For RdControlReturnsTheControlBitsOnly, RdInvalidReturnsZeroAndLogs, WrStatusIsLoggedAndIgnored,
WrControlReplacesTheFourBitsOnly and WrInvalidIsLoggedAndIgnored, at the smallest and the largest size. -/
theorem witness_busAccess : State.reset.block.phase = .operating ∧ 1 ≤ 1 ∧ 1 ≤ 4 ∧ 4 ≤ 4 := by decide

/-- For CanAcceptReturnsTheFreeSpace, DepositEnqueuesWhatFits, RaiseSetsTheLine and LowerClearsTheLine. -/
theorem witness_operating : (st 0x00 0b01 0xA [] false).block.phase = .operating := by decide

theorem witness_ReadValueDoesNotDependOnTheSize : 1 ≤ 1 ∧ 1 ≤ 4 ∧ 8 ≤ 8 ∧ (readResult 1 0xFF#8).toNat = 255 ∧ 4 ≤ 4 := by decide

theorem witness_WrDataWithTxEnTransmits :
    (st 0x00 0b01 0x5 [] false).block.phase = .operating ∧ (st 0x00 0b01 0x5 [] false).block.control[0] = true ∧ 1 ≤ 4 ∧ 4 ≤ 4 := by
  decide

theorem witness_WrDataWithoutTxEnIsDiscarded :
    (st 0x00 0b01 0x4 [] false).block.phase = .operating ∧ (st 0x00 0b01 0x4 [] false).block.control[0] = false ∧ 1 ≤ 1 ∧ 1 ≤ 4 := by
  decide

theorem witness_OtherSizesAreRefused : ((0 : Nat) = 0 ∨ 5 ≤ 0) ∧ ((5 : Nat) = 0 ∨ 5 ≤ 5) ∧ State.reset.block.phase = .operating := by
  decide

theorem witness_DeliveryWithinCanAcceptLosesNothing :
    ∃ t u, exec .canAccept (st 0x00 0b01 0x2 [0x01] false) = .next t ∧ t.out.backendReplies = [] ++ [15] ∧
      [0x31#8, 0x32#8].length ≤ 15 ∧ exec (.deposit [0x31#8, 0x32#8]) t = .next u :=
  ⟨_, _, rfl, by decide, by decide, rfl⟩

theorem witness_PopFrontYieldsTheFrontByte :
    (st 0x00 0b01 0x2 [] false).block.phase = .operating ∧ (st 0x00 0b01 0x2 [] false).block.rxFifo = [] ∧
    (st 0x00 0b11 0x2 [0x61] false).block.phase = .operating ∧ (st 0x00 0b11 0x2 [0x61] false).block.rxFifo = 0x61 :: [] := by decide

theorem witness_WriteDataForwardsOrDiscards :
    (st 0x00 0b01 0x4 [] false).block.phase = .operating ∧ (st 0x00 0b01 0x4 [] false).block.control[0] = false ∧
    (st 0x00 0b01 0x5 [] false).block.phase = .operating ∧ (st 0x00 0b01 0x5 [] false).block.control[0] = true := by decide

/-- The sizes at both ends, for BusPortDecodesByTheWholeOffset. -/
theorem witness_BusPortDecodesByTheWholeOffset : 1 ≤ 1 ∧ 1 ≤ 4 ∧ 4 ≤ 4 ∧ (0x08#32).toNat = 0x08 ∧ (0x09#32).toNat ≠ 0x08 := by decide

/-- The launch state with requests pending. -/
def withBus (q : List BusRequest) (sched : List Port) (s : State) : State :=
  { s with inp := { s.inp with busQueue := q, schedule := sched } }

theorem witness_StepOnTheBusPortIsTheBusDispatch :
    State.reset.block.phase = .operating ∧
    nextRequest (withBus [.read 0x04 1] [] State.reset).inp = some (.bus, .bus (.read 0x04 1)) ∧
    nextRequest (withBus [.write 0x0C 4 0x55] [.bus] State.reset).inp = some (.bus, .bus (.write 0x0C 4 0x55)) ∧
    1 ≤ 1 ∧ 1 ≤ 4 ∧ 4 ≤ 4 := by decide

theorem witness_DecodeOfEncodeIsTheOperation :
    (Instr.wrInvalid 0xFFFFFFFF 4 0xFFFFFFFF).wellFormed = true ∧ (Instr.rdInvalid 0x01 1).wellFormed = true ∧
    (Instr.deposit []).wellFormed = true := by decide

theorem witness_NoAgentCanRequestAnInternalPrimitive :
    (∀ c, PortRequest.backend .canAccept ≠ .internal c) ∧ decodePort (.backend .canAccept) = .ok .canAccept ∧
    State.reset.inp.internalQueue = [] ∧ ∃ t, step (withBus [.read 0x00 4] [] State.reset) = .next t :=
  ⟨(by intro c h; cases h), rfl, rfl, _, rfl⟩

theorem witness_StepRunsTheDecodedRequest :
    nextRequest (withBus [.read 0x00 4] [] State.reset).inp = some (.bus, .bus (.read 0x00 4)) ∧
    decodePort (.bus (.read 0x00 4)) = .ok (.rdData 4) := ⟨by decide, rfl⟩

theorem witness_StepWithoutARequestChangesNothing :
    State.reset.inp.busQueue = [] ∧ State.reset.inp.backendQueue = [] ∧ State.reset.inp.hostQueue = [] ∧
    State.reset.inp.internalQueue = [] := by decide

theorem witness_StepRefusesFetchesAndOtherSizes :
    nextRequest (withBus [.fetch 0x00 4] [] State.reset).inp = some (.bus, .bus (.fetch 0x00 4)) ∧
    nextRequest (withBus [.read 0x00 0] [] State.reset).inp = some (.bus, .bus (.read 0x00 0)) ∧
    nextRequest (withBus [.write 0x00 5 0] [] State.reset).inp = some (.bus, .bus (.write 0x00 5 0)) := by decide

/-- Two agents waiting: each can be the one taken next. -/
theorem witness_SomeScheduleTakesAnyWaitingRequest :
    frontRequest { (withBus [.read 0x00 4] [] State.reset).inp with hostQueue := [.reset] } .host = some (.host .reset) ∧
    frontRequest { (withBus [.read 0x00 4] [] State.reset).inp with hostQueue := [.reset] } .bus =
      some (.bus (.read 0x00 4)) := by decide

theorem witness_EveryRequestedOperationHasAStep :
    (withBus [.write 0x00 4 0x41] [] State.reset).block.phase = .operating ∧
    (∀ o n, (withBus [.write 0x00 4 0x41] [] State.reset).inp.busQueue.head? ≠ some (.fetch o n)) ∧
    (∀ o n, (withBus [.write 0x00 4 0x41] [] State.reset).inp.busQueue.head? = some (.read o n) → 1 ≤ n ∧ n ≤ 4) ∧
    (∀ o n v, (withBus [.write 0x00 4 0x41] [] State.reset).inp.busQueue.head? = some (.write o n v) → 1 ≤ n ∧ n ≤ 4) := by
  refine ⟨rfl, by rintro o n ⟨⟩, by rintro o n ⟨⟩, ?_⟩
  intro o n v h
  cases h
  decide

theorem witness_EveryStepKeepsTheInvariant :
    Inv (withBus [.read 0x00 4] [] State.reset) ∧ ∃ t, step (withBus [.read 0x00 4] [] State.reset) = .next t :=
  ⟨by decide, _, rfl⟩

/-- A full FIFO with the line high, and the events that led there. -/
theorem witness_RdStatusReturnsTheFlagsOnly :
    Inv { st 0x00 0b11 0xA (List.replicate 16 0x00) true with out := { State.reset.out with irq := [.lower, .raise] } } ∧
    Inv State.reset ∧ State.reset.block.phase = .operating ∧ 1 ≤ 1 ∧ 1 ≤ 4 ∧ 4 ≤ 4 := by decide

theorem witness_BusWritesKeepStatusAndFifo :
    Inv State.reset ∧ ∃ t, exec (.wrData 4 0x41) State.reset = .next t := ⟨by decide, _, rfl⟩

theorem witness_LineIsRaisedAndLoweredOnlyAsListed :
    isInternal (.deposit [0x31]) = false ∧ (∃ t, exec (.deposit [0x31]) (st 0x00 0b01 0xA [] false) = .next t) ∧
    isInternal .reset = false ∧ (∃ t, exec .reset (st 0x00 0b01 0xA [] true) = .next t) ∧
    isInternal (.wrData 1 0) = false ∧ ∃ t, exec (.wrData 1 0) (st 0x00 0b01 0x5 [] false) = .next t :=
  ⟨rfl, ⟨_, rfl⟩, rfl, ⟨_, rfl⟩, rfl, _, rfl⟩

theorem witness_IrqEventsAreTheListedRequests :
    isInternal (.deposit []) = false ∧ ∃ t, exec (.deposit []) (st 0x00 0b01 0xA [] false) = .next t := ⟨rfl, _, rfl⟩

theorem witness_RaisedLineStaysHighUntilReset :
    (withBus [.write 0x08 4 0] [] (st 0x31 0b01 0xA [] true)).block.irqLevel = true ∧
    (withBus [.write 0x08 4 0] [] (st 0x31 0b01 0xA [] true)).inp.internalQueue = [] ∧
    (∃ t, run 2 (withBus [.write 0x08 4 0] [] (st 0x31 0b01 0xA [] true)) = .next t) ∧
    ∀ x ∈ history 2 (withBus [.write 0x08 4 0] [] (st 0x31 0b01 0xA [] true)), x.2 ≠ .reset :=
  ⟨rfl, rfl, ⟨_, rfl⟩, by decide⟩

/-- Each field does change in some operation of its list. -/
theorem witness_FieldsChangeOnlyAsListed :
    Instr.rdData 4 ≠ .reset ∧
    (∃ t, exec (.rdData 4) (st 0x00 0b11 0x2 [0x48] false) = .next t ∧ t.block.data ≠ 0x00 ∧ t.block.status[1] ≠ true ∧
      t.block.rxFifo ≠ [0x48]) ∧
    (∃ t, exec (.wrControl 1 0x2) (st 0x00 0b01 0x0 [] false) = .next t ∧ t.block.control ≠ 0x0) ∧
    (∃ t, exec (.wrData 1 0x00) (st 0x00 0b00 0x5 [] false) = .next t ∧ t.block.status[0] ≠ false ∧
      t.block.irqLevel ≠ false) :=
  ⟨by decide, ⟨_, rfl, by decide, by decide, by decide⟩, ⟨_, rfl, by decide⟩, ⟨_, rfl, by decide, by decide⟩⟩

theorem witness_DiagnosticEventsAreThoseOfTheAnomaly :
    (∃ t, exec (.wrStatus 1 0) State.reset = .next t) ∧ anomalyOf (.wrStatus 1 0) State.reset = some .invalidWriteTarget ∧
    (∃ t, exec (.rdInvalid 0x01 1) State.reset = .next t) ∧ anomalyOf (.rdInvalid 0x01 1) State.reset = some .invalidAddress ∧
    anomalyOf (.deposit [0x31]) State.reset = some .fifoOverrun ∧
    anomalyOf (.wrData 1 0) { st 0x00 0b01 0x1 [] false with inp := { Inputs.empty with backendAnswers := [0] } } =
      some .backendFailure := ⟨⟨_, rfl⟩, by decide, ⟨_, rfl⟩, by decide, by decide, by decide⟩

theorem witness_TxTraceListsTheTransmittedBytesInOrder :
    ∃ t, run 2 (withBus [.write 0x00 1 0x41, .write 0x00 1 0x42] [] (st 0x00 0b01 0x1 [] false)) = .next t ∧
      t.out.tx = [0x41, 0x42] := ⟨_, rfl, by decide⟩

theorem witness_BytesLeaveInTheOrderTheyArrived :
    (∃ t, run 1 (withBus [.read 0x00 1] [] (st 0x00 0b11 0x2 [0x61, 0x62] false)) = .next t) ∧
    ∀ x ∈ history 1 (withBus [.read 0x00 1] [] (st 0x00 0b11 0x2 [0x61, 0x62] false)), x.2 ≠ .reset :=
  ⟨⟨_, rfl⟩, by decide⟩

theorem witness_OnlyADataReadOrAResetRemovesAByte :
    (∀ n, Instr.wrControl 4 0 ≠ .rdData n) ∧ Instr.wrControl 4 0 ≠ .popFront ∧ Instr.wrControl 4 0 ≠ .reset ∧
    ∃ t, exec (.wrControl 4 0) (st 0x00 0b11 0x2 [0x01] false) = .next t :=
  ⟨(by intro n h; cases h), by decide, by decide, _, rfl⟩

theorem witness_BackendAnswersAreReadByNothing :
    (st 0x00 0b01 0x1 [] false).block.phase = .operating ∧ 1 ≤ 4 ∧ 4 ≤ 4 ∧ (st 0x00 0b01 0x1 [] false).block.control[0] = true ∧
    (st 0x00 0b01 0x1 [] false).withoutAnswers =
      { st 0x00 0b01 0x1 [] false with inp := { Inputs.empty with backendAnswers := [0, 1] } }.withoutAnswers := by decide

/-- The start state of litmus P5. -/
def racing (sched : List Port) : State :=
  { st 0x00 0b01 0x2 [] false with
    inp :=
      { busQueue := [.read 0x04 4, .read 0x00 4], backendQueue := [.deposit [0x7A]], hostQueue := [], internalQueue := [],
        schedule := sched, backendAnswers := [] } }

theorem witness_DeliveryRacingAPollHasThreeOutcomes :
    (racing [.bus, .backend]).block.phase = .operating ∧ (racing [.bus, .backend]).block.status = 0b01 ∧
    (racing [.bus, .backend]).block.control = 0x2 ∧ (racing [.bus, .backend]).block.rxFifo = [] ∧
    (nextOf (run 3 (racing [.bus, .backend]))).map (fun t => t.out.busReplies) = some [.value 4 1, .value 4 0x7A] := by decide

theorem witness_DeliveryRacingAPollReachesEachOutcome :
    (racing []).block.phase = .operating ∧ (racing []).block.status = 0b01 ∧ (racing []).block.control = 0x2 ∧
    (racing []).block.rxFifo = [] ∧
    (nextOf (run 3 (racing []))).map (fun t => t.out.busReplies) = some [.value 4 1, .value 4 0] ∧
    (nextOf (run 3 (racing [.backend]))).map (fun t => t.out.busReplies) = some [.value 4 3, .value 4 0x7A] := by decide

theorem witness_SoftwareAccessesReachTheBlockByTheirOffset :
    Config.Platform.valid ⟨0x1000, 0x10, 4, 7, .little⟩ ∧ Config.Platform.valid ⟨0x1000, 0x10, 32, 0, .big⟩ ∧ 0x1000 ≤ 0x1000 ∧ 0x1000 ≤ 0x100F ∧ 0x100F < 0x1000 + 0x10 ∧
    (0x0FFF < 0x1000 ∨ 0x1000 + 0x10 ≤ 0x0FFF) ∧ (0x1010 < 0x1000 ∨ 0x1000 + 0x10 ≤ 0x1010) := by decide

end Sys2Proof.Tests
end

/-! THE BLOCK'S CHANGES. Everything an operation other than RESET can do to PeripheralState (spec/10_state.md R27), said once as a
relation with one constructor for each kind of change. The statements about the block's fields are case splits over it. -/

namespace Sys2Proof.Machine

/-- A DATA write: on the bus (R75), or the primitive run alone (R100). -/
abbrev IsDataWrite (i : Instr) : Prop := (∃ n v, i = .wrData n v) ∨ ∃ b, i = .writeData b

/-- `BlockChange b i c`: the operation `i`, not RESET, takes the block from `b` to `c`. -/
inductive BlockChange (b : PeripheralState) : Instr → PeripheralState → Prop where
  /-- The operation leaves the block as it is. -/
  | kept {i : Instr} : BlockChange b i b
  /-- A DATA write with TX_EN = 1 (R100). -/
  | transmitted {i : Instr} (d : Byte) (hi : IsDataWrite i) (hen : b.control[0] = true) :
      BlockChange b i
        { b with data := d, status := b.status ||| 0b01#2, irqLevel := b.control[2] || b.irqLevel }
  /-- A pop of a non-empty FIFO (R93), by RD_DATA also into DATA (R71). -/
  | popped {i : Instr} (d front : Byte) (rest : List Byte)
      (hi : (∃ n, i = .rdData n) ∨ i = .popFront ∧ d = b.data) (hf : b.rxFifo = front :: rest) :
      BlockChange b i
        { b with data := d, rxFifo := rest, status := if rest = [] then b.status &&& 0b01#2 else b.status }
  /-- A DEPOSIT that makes an empty FIFO non-empty (R91). -/
  | filled (bytes q : List Byte) (hf : b.rxFifo = []) (hq : q ≠ []) (hlen : q.length ≤ 16) :
      BlockChange b (.deposit bytes)
        { b with rxFifo := q, status := b.status ||| 0b10#2, irqLevel := b.control[3] || b.irqLevel }
  /-- A DEPOSIT behind queued bytes (R91). -/
  | appended (bytes q : List Byte) (hf : b.rxFifo ≠ []) (hlen : q.length ≤ 16 - b.rxFifo.length) :
      BlockChange b (.deposit bytes) { b with rxFifo := b.rxFifo ++ q }
  /-- A CONTROL write (R77). -/
  | configured (n : Nat) (v : Word) (bits : BitVec 4) : BlockChange b (.wrControl n v) { b with control := bits }
  /-- RAISE run alone (R105). -/
  | raised : BlockChange b .raise { b with irqLevel := true }
  /-- LOWER run alone (R106). -/
  | lowered : BlockChange b .lower { b with irqLevel := false }

/-! Each shared operation changes the block in one of these ways. -/

theorem transmitByte_blockChange (s : State) (d : Byte) {i : Instr} (hi : IsDataWrite i) :
    BlockChange s.block i (transmitByte s d).block := by
  cases h0 : s.block.control[0] with
  | false => rw [transmitByte_disabled h0]; exact .kept
  | true => rw [transmitByte_enabled h0]; exact .transmitted d hi h0

theorem readData_blockChange (s : State) (n : Nat) : BlockChange s.block (.rdData n) (readData s).block := by
  cases hf : s.block.rxFifo with
  | nil => rw [readData_nil hf]; exact .kept
  | cons b rest => rw [readData_cons hf]; exact .popped b b rest (.inl ⟨n, rfl⟩) hf

theorem popFront_blockChange (s : State) : BlockChange s.block .popFront (popFront s).2.block := by
  cases hf : s.block.rxFifo with
  | nil => rw [popFront_nil hf]; exact .kept
  | cons b rest => rw [popFront_cons hf]; exact .popped s.block.data b rest (.inr ⟨rfl, rfl⟩) hf

/-- At least one byte is enqueued exactly when the enqueued bytes are not the empty list. -/
theorem acceptedCount_pos_iff (s : State) (bytes : List Byte) :
    0 < acceptedCount s bytes ↔ bytes.take (acceptedCount s bytes) ≠ [] := by
  have hle : acceptedCount s bytes ≤ bytes.length := Nat.min_le_left ..
  rw [← List.length_pos_iff, List.length_take]
  omega

theorem depositBytes_blockChange (s : State) (bytes : List Byte) :
    BlockChange s.block (.deposit bytes) (depositBytes s bytes).block := by
  have hlen : (bytes.take (acceptedCount s bytes)).length ≤ 16 - s.block.rxFifo.length :=
    (List.length_take_le ..).trans (acceptedCount_le_free s bytes)
  rw [depositBytes_block]
  simp only [acceptedCount_pos_iff]
  generalize bytes.take (acceptedCount s bytes) = q at *
  by_cases hq : q = []
  · simpa [hq] using BlockChange.kept (b := s.block)
  · by_cases hf : s.block.rxFifo = []
    · simpa [hf, hq] using BlockChange.filled bytes q hf hq (by omega)
    · simpa [hf] using BlockChange.appended bytes q hf hlen

/-- EVERYTHING AN OPERATION CAN DO TO THE BLOCK, RESET aside. -/
theorem effect_blockChange (s : State) {i : Instr} (hi : i ≠ .reset) :
    BlockChange s.block i (effect s i).block := by
  cases i with
  | reset => exact absurd rfl hi
  | rdData n => exact readData_blockChange s n
  | wrData n v => exact transmitByte_blockChange s (dataOperand v) (.inl ⟨n, v, rfl⟩)
  | writeData d => exact transmitByte_blockChange s d (.inr ⟨d, rfl⟩)
  | wrControl n v => exact .configured n v (controlOperand v)
  | deposit bytes => exact depositBytes_blockChange s bytes
  | popFront => exact popFront_blockChange s
  | raise => exact .raised
  | lower => exact .lowered
  | rdStatus _ | rdControl _ | rdInvalid _ _ | wrStatus _ _ | wrInvalid _ _ _ | canAccept => exact .kept

theorem exec_blockChange {i : Instr} {s t : State} (h : exec i s = .next t) (hi : i ≠ .reset) :
    BlockChange s.block i t.block := by
  obtain ⟨-, -, rfl⟩ := exec_next_iff.mp h
  exact effect_blockChange s hi

/-! The two flags of STATUS under the updates the block makes. -/

theorem txReady_or_txReady (v : BitVec 2) : (v ||| 0b01#2)[0] = true := by simp
theorem rxAvail_or_txReady (v : BitVec 2) : (v ||| 0b01#2)[1] = v[1] := by simp
theorem txReady_or_rxAvail (v : BitVec 2) : (v ||| 0b10#2)[0] = v[0] := by simp

/-- Clearing RX_AVAIL or not, a pop keeps TX_READY. -/
theorem txReady_after_pop (v : BitVec 2) (drained : Prop) [Decidable drained] :
    (if drained then v &&& 0b01#2 else v)[0] = v[0] := by
  split <;> simp

/-- Setting TX_READY where it is set changes nothing. -/
theorem or_txReady_of_txReady {v : BitVec 2} (h : v[0] = true) : v ||| 0b01#2 = v := by
  revert v; decide

end Sys2Proof.Machine

/-! WHAT THE BLOCK'S CHANGES CHANGE: for each field of PeripheralState, the operations R27 lists for it. -/

namespace Sys2Proof.Machine.BlockChange

variable {b c : PeripheralState} {i : Instr}

theorem data_changes (h : BlockChange b i c) (hd : c.data ≠ b.data) :
    ((∃ n, i = .rdData n) ∧ b.rxFifo ≠ []) ∨ (IsDataWrite i ∧ b.control[0] = true) := by
  cases h with
  | transmitted d hi hen => exact .inr ⟨hi, hen⟩
  | popped d front rest hi hf =>
    rcases hi with hrd | ⟨-, hkept⟩
    · exact .inl ⟨hrd, by simp [hf]⟩
    · exact absurd hkept hd
  | kept | filled | appended | configured | raised | lowered => exact absurd rfl hd

theorem txReady_changes (h : BlockChange b i c) (hs : c.status[0] ≠ b.status[0]) :
    IsDataWrite i ∧ b.control[0] = true := by
  cases h with
  | transmitted d hi hen => exact ⟨hi, hen⟩
  | popped => exact absurd (txReady_after_pop _ _) hs
  | filled => exact absurd (txReady_or_rxAvail _) hs
  | kept | appended | configured | raised | lowered => exact absurd rfl hs

theorem rxAvail_changes (h : BlockChange b i c) (hs : c.status[1] ≠ b.status[1]) :
    ((∃ bytes, i = .deposit bytes) ∧ b.rxFifo = [] ∧ c.rxFifo ≠ []) ∨
    (((∃ n, i = .rdData n) ∨ i = .popFront) ∧ b.rxFifo ≠ [] ∧ c.rxFifo = []) := by
  cases h with
  | transmitted d hi hen => exact absurd (rxAvail_or_txReady _) hs
  | popped d front rest hi hf =>
    by_cases hr : rest = []
    · exact .inr ⟨hi.imp_right And.left, by simp [hf], hr⟩
    · simp only [hr, if_false] at hs
      exact absurd rfl hs
  | filled bytes q hf hq => exact .inl ⟨⟨bytes, rfl⟩, hf, hq⟩
  | kept | appended | configured | raised | lowered => exact absurd rfl hs

theorem control_changes (h : BlockChange b i c) (hc : c.control ≠ b.control) : ∃ n v, i = .wrControl n v := by
  cases h with
  | configured n v => exact ⟨n, v, rfl⟩
  | kept | transmitted | popped | filled | appended | raised | lowered => exact absurd rfl hc

theorem rxFifo_changes (h : BlockChange b i c) (hf : c.rxFifo ≠ b.rxFifo) :
    (∃ bytes, i = .deposit bytes) ∨ (∃ n, i = .rdData n) ∨ i = .popFront := by
  cases h with
  | popped d front rest hi => exact .inr (hi.imp_right And.left)
  | filled bytes | appended bytes => exact .inl ⟨bytes, rfl⟩
  | kept | transmitted | configured | raised | lowered => exact absurd rfl hf

theorem irqLevel_changes (h : BlockChange b i c) (hl : c.irqLevel ≠ b.irqLevel) :
    (IsDataWrite i ∧ b.control[0] = true ∧ b.control[2] = true) ∨
    ((∃ bytes, i = .deposit bytes) ∧ b.rxFifo = [] ∧ c.rxFifo ≠ [] ∧ b.control[3] = true) ∨
    i = .raise ∨ i = .lower := by
  have enabled_of_ne : ∀ {e l : Bool}, (e || l) ≠ l → e = true := by decide
  cases h with
  | transmitted d hi hen => exact .inl ⟨hi, hen, enabled_of_ne hl⟩
  | filled bytes q hf hq => exact .inr (.inl ⟨⟨bytes, rfl⟩, hf, hq, enabled_of_ne hl⟩)
  | raised => exact .inr (.inr (.inl rfl))
  | lowered => exact .inr (.inr (.inr rfl))
  | kept | popped | appended | configured => exact absurd rfl hl

/-- LOWER and RESET alone take the line from high to low (R108). -/
theorem irqLevel_stays_high (h : BlockChange b i c) (hi : i ≠ .lower) (hb : b.irqLevel = true) :
    c.irqLevel = true := by
  cases h with
  | lowered => exact absurd rfl hi
  | raised => rfl
  | transmitted | filled => simp [hb]
  | kept | popped | appended | configured => exact hb

end Sys2Proof.Machine.BlockChange

/-! THE INVARIANT (R17) in two halves: INV1 to INV3 speak of the block alone, INV5 of the line's level and `irq_out`. -/

namespace Sys2Proof.Machine

/-- INV1 to INV3 of R17. -/
structure BlockInv (b : PeripheralState) : Prop where
  fifo_le : b.rxFifo.length ≤ 16
  rxAvail_iff : b.status[1] = true ↔ b.rxFifo ≠ []
  txReady : b.status[0] = true

/-- INV5 of R17. -/
def LineInv (s : State) : Prop := s.out.irq.getLast? = some (lastRequestFor s.block.irqLevel)

theorem inv_iff (s : State) : Inv s ↔ (s.block.phase = .operating → BlockInv s.block ∧ LineInv s) :=
  forall_congr' fun _ =>
    ⟨fun ⟨h1, h2, h3, h5⟩ => ⟨⟨h1, h2, h3⟩, h5⟩, fun ⟨⟨h1, h2, h3⟩, h5⟩ => ⟨h1, h2, h3, h5⟩⟩

theorem BlockChange.keeps_blockInv {b c : PeripheralState} {i : Instr} (h : BlockChange b i c)
    (hb : BlockInv b) : BlockInv c := by
  obtain ⟨hlen, havail, hready⟩ := hb
  cases h with
  | kept | configured | raised | lowered => exact ⟨hlen, havail, hready⟩
  | transmitted => exact ⟨hlen, (rxAvail_or_txReady _).symm ▸ havail, txReady_or_txReady _⟩
  | popped d front rest hi hf =>
    have hrest : rest.length ≤ 16 := by rw [hf, List.length_cons] at hlen; omega
    refine ⟨hrest, ?_, (txReady_after_pop _ _).trans hready⟩
    by_cases hr : rest = []
    · simp [hr]
    · simpa [hr, hf] using havail
  | filled bytes q hf hq hq16 =>
    exact ⟨hq16, by simp [hq], (txReady_or_rxAvail _).trans hready⟩
  | appended bytes q hf hq =>
    exact ⟨by rw [List.length_append]; omega, by simp [havail, hf], hready⟩

theorem resetBlock_blockInv (s : State) : BlockInv (resetBlock s).block :=
  ⟨Nat.zero_le _, by simp [resetBlock_eq], by simp [resetBlock_eq]⟩

theorem effect_keeps_blockInv {s : State} (i : Instr) (h : BlockInv s.block) : BlockInv (effect s i).block := by
  by_cases hi : i = .reset
  · subst hi; exact resetBlock_blockInv s
  · exact (effect_blockChange s hi).keeps_blockInv h

/-! The line and its trace move together: an operation leaves both as they are, or drives the line and appends that very request. -/

/-- `s` goes to `t` with the line and `irq_out` untouched. -/
def LineKept (s t : State) : Prop := t.block.irqLevel = s.block.irqLevel ∧ t.out.irq = s.out.irq

/-- `s` goes to `t` with one request on `irq_out`, and the line at its level. -/
def LineDriven (s t : State) : Prop := t.out.irq = s.out.irq ++ [lastRequestFor t.block.irqLevel]

theorem LineKept.keeps_lineInv {s t : State} (h : LineKept s t) (hs : LineInv s) : LineInv t := by
  obtain ⟨hlevel, htrace⟩ := h
  rw [LineInv, hlevel, htrace]
  exact hs

theorem LineDriven.lineInv {s t : State} (h : LineDriven s t) : LineInv t := by
  rw [LineInv, h]
  exact List.getLast?_concat

theorem transmitByte_line (s : State) (d : Byte) :
    LineKept s (transmitByte s d) ∨ LineDriven s (transmitByte s d) := by
  cases h0 : s.block.control[0] with
  | false => rw [transmitByte_disabled h0]; exact .inl ⟨rfl, rfl⟩
  | true =>
    rw [transmitByte_enabled h0]
    cases h2 : s.block.control[2] with
    | false => exact .inl ⟨by simp, by simp⟩
    | true => exact .inr (by simp [LineDriven, lastRequestFor])

theorem depositBytes_line (s : State) (bytes : List Byte) :
    LineKept s (depositBytes s bytes) ∨ LineDriven s (depositBytes s bytes) := by
  rw [LineKept, LineDriven, depositBytes_block, depositBytes_out]
  by_cases h : s.block.rxFifo = [] ∧ 0 < acceptedCount s bytes ∧ s.block.control[3] = true
  · exact .inr (by simp only [if_pos h, lastRequestFor])
  · exact .inl (by simp only [if_neg h, List.append_nil, and_self])

theorem readData_irqLevel (s : State) : (readData s).block.irqLevel = s.block.irqLevel := by
  cases hf : s.block.rxFifo with
  | nil => rw [readData_nil hf]
  | cons b rest => rw [readData_cons hf]

theorem popFront_irqLevel (s : State) : (popFront s).2.block.irqLevel = s.block.irqLevel := by
  cases hf : s.block.rxFifo with
  | nil => rw [popFront_nil hf]
  | cons b rest => rw [popFront_cons hf]

theorem popFront_out (s : State) : (popFront s).2.out = s.out := by
  cases hf : s.block.rxFifo with
  | nil => rw [popFront_nil hf]
  | cons b rest => rw [popFront_cons hf]

theorem effect_line (s : State) (i : Instr) : LineKept s (effect s i) ∨ LineDriven s (effect s i) := by
  cases i with
  | wrData n v => exact transmitByte_line s (dataOperand v)
  | writeData d => exact transmitByte_line s d
  | deposit bytes => exact depositBytes_line s bytes
  | reset | raise | lower => exact .inr rfl
  | rdData n => exact .inl ⟨readData_irqLevel s, by simp [effect]⟩
  | popFront => exact .inl ⟨popFront_irqLevel s, by simp [effect, popFront_out]⟩
  | rdStatus _ | rdControl _ | rdInvalid _ _ | wrStatus _ _ | wrControl _ _ | wrInvalid _ _ _ | canAccept =>
    exact .inl ⟨rfl, rfl⟩

theorem effect_keeps_lineInv {s : State} (i : Instr) (h : LineInv s) : LineInv (effect s i) := by
  rcases effect_line s i with hkept | hdriven
  · exact hkept.keeps_lineInv h
  · exact hdriven.lineInv

/-- RESET establishes the invariant whatever the state before it; every other operation runs in phase OPERATING and keeps it. -/
theorem exec_keeps_inv {i : Instr} {s t : State} (hs : Inv s) (h : exec i s = .next t) : Inv t := by
  obtain ⟨hphase, -, rfl⟩ := exec_next_iff.mp h
  rw [inv_iff] at hs ⊢
  intro _
  rcases hphase with rfl | hop
  · exact ⟨resetBlock_blockInv s, LineDriven.lineInv (s := s) rfl⟩
  · obtain ⟨hblock, hline⟩ := hs hop
    exact ⟨effect_keeps_blockInv i hblock, effect_keeps_lineInv i hline⟩

/-- Settles O35: the taking of the request leaves the block and the traces alone, and the operation keeps both halves of the invariant. -/
theorem everyStepKeepsTheInvariant : Obligations.EveryStepKeepsTheInvariant := by
  intro s t hs h
  rcases step_cases h with ⟨-, -, rfl⟩ | ⟨p, r, i, -, -, -, hexec⟩
  · exact hs
  · exact exec_keeps_inv (s := s.takeRequest p) hs hexec

/-- Settles O36: three of the four writes do not touch the two fields, and a transmitting WR_DATA sets TX_READY, which INV3 has set. -/
theorem busWritesKeepStatusAndFifo : Obligations.BusWritesKeepStatusAndFifo := by
  rintro i s t hs ⟨n, v, hi⟩ h
  obtain ⟨hphase, -, rfl⟩ := exec_next_iff.mp h
  rcases hi with rfl | rfl | rfl | ⟨o, rfl⟩
  case inl =>
    obtain ⟨-, -, hready, -⟩ := hs (hphase.resolve_left (by simp))
    cases h0 : s.block.control[0] with
    | false => simp [effect, transmitByte_disabled h0]
    | true => simp [effect, transmitByte_enabled h0, or_txReady_of_txReady hready]
  all_goals exact ⟨rfl, rfl⟩

end Sys2Proof.Machine

/-! THE INTERRUPT LINE over operations, steps and runs (R107, R108). -/

namespace Sys2Proof.Machine

theorem transmitByte_irq (s : State) (d : Byte) :
    (transmitByte s d).out.irq =
      s.out.irq ++ if s.block.control[0] = true ∧ s.block.control[2] = true then [.raise] else [] := by
  cases h0 : s.block.control[0] with
  | false => simp [transmitByte_disabled h0]
  | true => simp [transmitByte_enabled h0]

/-- An empty FIFO takes at least one byte exactly when one is offered and RX_EN = 1 (R90, R91). -/
theorem acceptedCount_pos_of_empty {s : State} (hf : s.block.rxFifo = []) (bytes : List Byte) :
    0 < acceptedCount s bytes ↔ bytes ≠ [] ∧ s.block.control[1] = true := by
  rw [acceptedCount, canAccept_eq, hf, ← List.length_pos_iff]
  cases s.block.control[1] <;> simp

theorem depositBytes_irq (s : State) (bytes : List Byte) :
    (depositBytes s bytes).out.irq =
      s.out.irq ++
        if bytes ≠ [] ∧ s.block.rxFifo = [] ∧ s.block.control[1] = true ∧ s.block.control[3] = true then [.raise]
        else [] := by
  have hcond :
      (s.block.rxFifo = [] ∧ 0 < acceptedCount s bytes ∧ s.block.control[3] = true) ↔
        (bytes ≠ [] ∧ s.block.rxFifo = [] ∧ s.block.control[1] = true ∧ s.block.control[3] = true) := by
    by_cases hf : s.block.rxFifo = []
    · rw [acceptedCount_pos_of_empty hf]; tauto
    · simp [hf]
  simp only [depositBytes_out, hcond]

/-- Settles O38, operation by operation. -/
theorem irqEventsAreTheListedRequests : Obligations.IrqEventsAreTheListedRequests := by
  intro i s t hport h
  obtain ⟨-, -, rfl⟩ := exec_next_iff.mp h
  cases i with
  | reset => rfl
  | wrData n v => exact transmitByte_irq s (dataOperand v)
  | deposit bytes => exact depositBytes_irq s bytes
  | rdData n => simp [effect]
  | rdStatus _ | rdControl _ | rdInvalid _ _ | wrStatus _ _ | wrControl _ _ | wrInvalid _ _ _ | canAccept =>
    exact (List.append_nil _).symm
  | popFront | writeData _ | raise | lower => cases hport

/-- Only a request on the internal port selects an internal primitive (R51). -/
theorem decodePort_isInternal {r : PortRequest} {i : Instr} (h : decodePort r = .ok i) :
    isInternal i = true ↔ ∃ c, r = .internal c := by
  match r with
  | .bus (.read o n) =>
    rw [decodePort_read] at h
    obtain ⟨-, rfl⟩ := withLegalSize_ok h
    split_ifs <;> simp [isInternal]
  | .bus (.write o n v) =>
    rw [decodePort_write] at h
    obtain ⟨-, rfl⟩ := withLegalSize_ok h
    split_ifs <;> simp [isInternal]
  | .bus (.fetch _ _) => cases h
  | .backend .canAccept | .backend (.deposit _) | .host .reset => cases h; simp [isInternal]
  | .internal .popFront | .internal (.writeData _) | .internal .raise | .internal .lower =>
    cases h; simp [isInternal]

/-- With no internal call pending the request taken next is no internal call. -/
theorem nextRequest_ne_internal {inp : Inputs} {p : Port} {r : PortRequest} (hq : inp.internalQueue = [])
    (h : nextRequest inp = some (p, r)) (c : InternalCall) : r ≠ .internal c := by
  rintro rfl
  have hfront := nextRequest_front h
  cases p <;> simp [frontRequest, hq] at hfront

theorem takeFrom_internalQueue {inp : Inputs} (hq : inp.internalQueue = []) (p : Port) :
    (takeFrom inp p).internalQueue = [] := by
  cases p <;> simp [takeFrom, hq]

theorem exec_internalQueue {i : Instr} {s t : State} (h : exec i s = .next t) :
    t.inp.internalQueue = s.inp.internalQueue := by
  obtain ⟨-, -, rfl⟩ := exec_next_iff.mp h
  obtain ⟨answers, hinp⟩ := effect_inp s i
  rw [hinp]

/-- What a run without a RESET carries from step to step: the line is high and no internal call is pending. -/
def LineHeld (s : State) : Prop := s.block.irqLevel = true ∧ s.inp.internalQueue = []

theorem step_keeps_lineHeld {s t : State} (hs : LineHeld s) (h : step s = .next t)
    (hreset : nextInstr s ≠ some .reset) : LineHeld t := by
  obtain ⟨hhigh, hqueue⟩ := hs
  rcases step_cases h with ⟨-, -, rfl⟩ | ⟨p, r, i, hnext, hdec, hi, hexec⟩
  · exact ⟨hhigh, hqueue⟩
  · have hne_reset : i ≠ .reset := fun h => hreset (h ▸ hi)
    have hne_lower : i ≠ .lower := by
      rintro rfl
      obtain ⟨c, hc⟩ := (decodePort_isInternal hdec).mp rfl
      exact nextRequest_ne_internal hqueue hnext c hc
    exact ⟨(exec_blockChange hexec hne_reset).irqLevel_stays_high hne_lower hhigh,
      (exec_internalQueue hexec).trans (takeFrom_internalQueue hqueue p)⟩

theorem run_keeps_lineHeld (k : Nat) (s t : State) (hs : LineHeld s) (h : run k s = .next t)
    (hhist : ∀ x ∈ history k s, x.2 ≠ .reset) : LineHeld t := by
  induction k generalizing s with
  | zero => cases h; exact hs
  | succ k ih =>
    obtain ⟨u, hstep, hrun⟩ := run_succ_next h
    rw [history_succ hstep] at hhist
    have hfirst : nextInstr s ≠ some .reset := fun hi => hhist (s, .reset) (by simp [hi]) rfl
    exact ih u (step_keeps_lineHeld hs hstep hfirst) hrun fun x hx => hhist x (List.mem_append_right _ hx)

/-- Settles O39, by induction on the number of steps: only LOWER and RESET lower the line, and no port can request a LOWER. -/
theorem raisedLineStaysHighUntilReset : Obligations.RaisedLineStaysHighUntilReset :=
  fun k s t hhigh hqueue hrun hhist => (run_keeps_lineHeld k s t ⟨hhigh, hqueue⟩ hrun hhist).1

/-- Settles O40, field by field. -/
theorem fieldsChangeOnlyAsListed : Obligations.FieldsChangeOnlyAsListed := by
  intro i s t h hi
  have hchange := exec_blockChange h hi
  obtain ⟨-, -, rfl⟩ := exec_next_iff.mp h
  exact ⟨hchange.data_changes, hchange.txReady_changes, hchange.rxAvail_changes, hchange.control_changes,
    hchange.rxFifo_changes, hchange.irqLevel_changes, effect_phase hi⟩

end Sys2Proof.Machine

/-! THE LIFECYCLE (R16, R26, R137, R138). -/

namespace Sys2Proof.Machine

/-- Settles O2: RESET writes every field of the block and appends its one Irq(lower). -/
theorem launchStateIsTheStateAfterTheFirstReset : Obligations.LaunchStateIsTheStateAfterTheFirstReset :=
  ⟨rfl, rfl, rfl, fun b _ => congrArg Host.Outcome.next (resetBlock_eq { State.attached with block := b })⟩

theorem whenOperating_uninitialized {s : State} (h : s.block.phase = .uninitialized) (t : State) :
    whenOperating s t = .refused .beforeFirstReset := by
  simp [whenOperating, h]

theorem busAccess_uninitialized {s : State} (h : s.block.phase = .uninitialized) (size : Nat) (t : State) :
    busAccess s size t = .refused .beforeFirstReset := by
  simp [busAccess, h]

/-- Settles O3: every operation but RESET stands behind one of the two guards. -/
theorem onlyResetRunsBeforeTheFirstReset : Obligations.OnlyResetRunsBeforeTheFirstReset := by
  intro i s h hi
  cases i with
  | reset => exact absurd rfl hi
  | rdData _ | rdStatus _ | rdControl _ | rdInvalid _ _ | wrData _ _ | wrStatus _ _ | wrControl _ _ | wrInvalid _ _ _ =>
    exact busAccess_uninitialized h _ _
  | canAccept | deposit _ | popFront | writeData _ | raise | lower => exact whenOperating_uninitialized h _

/-- Settles O30: with every queue empty no request is taken. -/
theorem stepWithoutARequestChangesNothing : Obligations.StepWithoutARequestChangesNothing := by
  intro s hbus hbackend hhost hinternal
  have hnone : nextRequest s.inp = none := (nextRequest_none_iff s.inp).mpr ⟨hbus, hbackend, hhost, hinternal⟩
  rw [step, hnone]

/-- Settles O34: the launch state is what RESET leaves of the attached block, and RESET establishes both halves of the invariant. -/
theorem invariantHoldsAtReset : Obligations.InvariantHoldsAtReset :=
  ⟨(inv_iff State.reset).mpr fun _ => ⟨resetBlock_blockInv State.attached, LineDriven.lineInv (s := State.attached) rfl⟩, rfl⟩

end Sys2Proof.Machine

/-! ACCESS SIZES AND OPERANDS (R35): what the guards answer at a size outside 1 to 4, on the port and in the operation itself. -/

namespace Sys2Proof.Machine

theorem legalSize_eq_false_iff (size : Nat) : legalSize size = false ↔ size = 0 ∨ 5 ≤ size := by
  rw [← Bool.not_eq_true, legalSize_iff]
  omega

theorem withLegalSize_illegal {size : Nat} (h : legalSize size = false) (i : Instr) :
    withLegalSize size i = .error .illegalSize := by
  simp [withLegalSize, h]

theorem decodePort_read_illegalSize {size : Nat} (h : legalSize size = false) (offset : Word) :
    decodePort (.bus (.read offset size)) = .error .illegalSize :=
  (decodePort_read offset size).trans (withLegalSize_illegal h _)

theorem decodePort_write_illegalSize {size : Nat} (h : legalSize size = false) (offset value : Word) :
    decodePort (.bus (.write offset size value)) = .error .illegalSize :=
  (decodePort_write offset size value).trans (withLegalSize_illegal h _)

theorem busAccess_illegalSize {s : State} {size : Nat} (hop : s.block.phase = .operating)
    (h : legalSize size = false) (t : State) : busAccess s size t = .refused .illegalSize := by
  simp [busAccess, hop, h]

/-- Every bus operation stands behind the guard on its size. -/
theorem exec_illegalSize {i : Instr} {s : State} {size : Nat} (hi : accessSize i = some size)
    (hop : s.block.phase = .operating) (h : legalSize size = false) : exec i s = .refused .illegalSize := by
  cases i with
  | rdData _ | rdStatus _ | rdControl _ | rdInvalid _ _ | wrData _ _ | wrStatus _ _ | wrControl _ _ | wrInvalid _ _ _ =>
    cases hi
    exact busAccess_illegalSize hop h _
  | canAccept | deposit _ | reset | popFront | writeData _ | raise | lower => cases hi

/-- Settles O16. -/
theorem otherSizesAreRefused : Obligations.OtherSizesAreRefused := by
  intro size value offset s hsize
  have hillegal : legalSize size = false := (legalSize_eq_false_iff size).mpr hsize
  refine ⟨decodePort_read_illegalSize hillegal offset, decodePort_write_illegalSize hillegal offset value, ?_⟩
  intro hop i hi
  have hacc : accessSize i = some size := by
    revert i
    simp [accessSize]
  exact exec_illegalSize hacc hop hillegal

/-- Settles O10: a register of at most 8 bits loses nothing at the narrowest size. -/
theorem readValueDoesNotDependOnTheSize : Obligations.ReadValueDoesNotDependOnTheSize := by
  intro size w reg hsize _ hw
  rw [readResult_eq hw size hsize]
  exact BitVec.toNat_setWidth_of_le (by omega)

end Sys2Proof.Machine

/-! TAKING A REQUEST (R40, R41): which request a step takes, and that it does what the request selects. -/

namespace Sys2Proof.Machine

theorem step_of_decode_ok {s : State} {p : Port} {r : PortRequest} {i : Instr}
    (hnext : nextRequest s.inp = some (p, r)) (hdec : decodePort r = .ok i) :
    step s = exec i (s.takeRequest p) := by
  simp only [step, hnext, hdec]

theorem step_of_decode_error {s : State} {p : Port} {r : PortRequest} {e : DecodeError}
    (hnext : nextRequest s.inp = some (p, r)) (hdec : decodePort r = .error e) :
    step s = .refused (refusalOf e) := by
  simp only [step, hnext, hdec]

/-- Settles O29. -/
theorem stepRunsTheDecodedRequest : Obligations.StepRunsTheDecodedRequest := by
  intro s p r i hnext hdec
  refine ⟨step_of_decode_ok hnext hdec, nextRequest_front hnext, ?_⟩
  cases p <;> rfl

/-- Settles O31: the bus port's decoder rejects these requests, and the step passes its reason on. -/
theorem stepRefusesFetchesAndOtherSizes : Obligations.StepRefusesFetchesAndOtherSizes := by
  intro s offset size value
  refine ⟨fun hfetch => step_of_decode_error hfetch rfl, ?_⟩
  intro hsize hnext
  have hillegal : legalSize size = false := (legalSize_eq_false_iff size).mpr hsize
  rcases hnext with hread | hwrite
  · exact step_of_decode_error hread (decodePort_read_illegalSize hillegal offset)
  · exact step_of_decode_error hwrite (decodePort_write_illegalSize hillegal offset value)

/-- What waits at a port does not depend on the schedule. -/
theorem frontRequest_reschedule (inp : Inputs) (sched : List Port) (p : Port) :
    frontRequest { inp with schedule := sched } p = frontRequest inp p := by
  cases p <;> rfl

/-- Settles O32: the schedule that names the port. -/
theorem someScheduleTakesAnyWaitingRequest : Obligations.SomeScheduleTakesAnyWaitingRequest := by
  intro s p r hfront
  exact ⟨[p], nextRequest_scheduled rfl ((frontRequest_reschedule s.inp [p] p).trans hfront)⟩

theorem run_succ_of_step {s u : State} (h : step s = .next u) (k : Nat) : run (k + 1) s = run k u := by
  rw [run, h]

/-- A well-formed bus operation has a legal size. -/
theorem accessSize_of_wellFormed {i : Instr} (h : i.wellFormed = true) (n : Nat) (hn : accessSize i = some n) :
    1 ≤ n ∧ n ≤ 4 := by
  rw [← legalSize_iff]
  cases i with
  | rdData _ | rdStatus _ | rdControl _ | wrData _ _ | wrStatus _ _ | wrControl _ _ => cases hn; exact h
  | rdInvalid _ _ | wrInvalid _ _ _ => cases hn; exact (Bool.and_eq_true_iff.mp h).2
  | canAccept | deposit _ | reset | popFront | writeData _ | raise | lower => cases hn

/-- In phase OPERATING a request that selects an operation has that operation's effect. -/
theorem step_eq_effect {s : State} {p : Port} {r : PortRequest} {i : Instr} (hop : s.block.phase = .operating)
    (hnext : nextRequest s.inp = some (p, r)) (hdec : decodePort r = .ok i) :
    step s = .next (effect (s.takeRequest p) i) :=
  (step_of_decode_ok hnext hdec).trans
    (exec_next_iff.mpr ⟨.inr hop, accessSize_of_wellFormed (decodePort_wellFormed hdec), rfl⟩)

/-- If a request waits anywhere, the next step takes one that waits. -/
theorem nextRequest_of_waiting {inp : Inputs} {q : Port} {x : PortRequest} (h : frontRequest inp q = some x) :
    ∃ p r, nextRequest inp = some (p, r) ∧ frontRequest inp p = some r := by
  cases hnext : nextRequest inp with
  | some pr => exact ⟨pr.1, pr.2, rfl, nextRequest_front hnext⟩
  | none =>
    obtain ⟨hbus, hbackend, hhost, hinternal⟩ := (nextRequest_none_iff inp).mp hnext
    cases q <;> simp [frontRequest, hbus, hbackend, hhost, hinternal] at h

end Sys2Proof.Machine

/-! THE SOFTWARE SIDE (R31). -/

namespace Sys2Proof.Machine

theorem windowOffset_inside {p : Config.Platform} {a : Nat} (hlo : p.base ≤ a) (hhi : a < p.base + p.windowSize) :
    windowOffset p a = some (BitVec.ofNat 32 (a - p.base)) :=
  if_pos ⟨hlo, hhi⟩

theorem windowOffset_outside {p : Config.Platform} {a : Nat} (h : a < p.base ∨ p.base + p.windowSize ≤ a) :
    windowOffset p a = none :=
  if_neg (by omega)

/-- The offsets of a valid platform's window are 32-bit numbers (R6). -/
theorem windowSize_le_of_valid {p : Config.Platform} (h : p.valid) : p.windowSize ≤ 2 ^ 32 := by
  obtain ⟨-, -, hwidth, hfit⟩ := h
  exact hfit.trans (Nat.pow_le_pow_right (by decide) hwidth)

/-- Settles O48: the window is no larger than the offsets are, so the subtraction loses no bit. -/
theorem softwareAccessesReachTheBlockByTheirOffset : Obligations.SoftwareAccessesReachTheBlockByTheirOffset := by
  intro p a n v hvalid
  constructor
  · intro hlo hhi
    have hwindow := windowSize_le_of_valid hvalid
    have hoffset := windowOffset_inside hlo hhi
    refine ⟨BitVec.ofNat 32 (a - p.base), ?_, by simp [memRead, hoffset], by simp [memWrite, hoffset]⟩
    rw [BitVec.toNat_ofNat, Nat.mod_eq_of_lt (by omega)]
  · intro hout
    simp [memRead, memWrite, windowOffset_outside hout]

end Sys2Proof.Machine

/-! THE TRANSMIT TRACE over operations, steps and runs (R42, R100). -/

namespace Sys2Proof.Machine

theorem transmitByte_tx (s : State) (b : Byte) :
    (transmitByte s b).out.tx = s.out.tx ++ if s.block.control[0] then [b] else [] := by
  cases h0 : s.block.control[0] with
  | false => simp [transmitByte_disabled h0]
  | true => simp [transmitByte_enabled h0]

theorem effect_tx (s : State) (i : Instr) : (effect s i).out.tx = s.out.tx ++ transmittedBy s i := by
  cases i with
  | wrData n v => simp [effect, transmittedBy, transmitByte_tx, dataOperand_eq]
  | writeData b => exact transmitByte_tx s b
  | rdData n => simp [effect, transmittedBy]
  | deposit bytes => simp [effect, transmittedBy, depositBytes_out]
  | popFront => simp [effect, transmittedBy, popFront_out]
  | rdStatus _ | rdControl _ | rdInvalid _ _ | wrStatus _ _ | wrControl _ _ | wrInvalid _ _ _ | canAccept | reset
  | raise | lower => exact (List.append_nil _).symm

/-- What an operation transmits does not depend on the requests that wait. -/
theorem transmittedBy_takeRequest (s : State) (p : Port) (i : Instr) :
    transmittedBy (s.takeRequest p) i = transmittedBy s i := rfl

theorem step_tx {s t : State} (h : step s = .next t) :
    t.out.tx = s.out.tx ++ transmittedIn ((nextInstr s).map (fun i => (s, i))).toList := by
  rcases step_cases h with ⟨-, hi, rfl⟩ | ⟨p, r, i, -, -, hi, hexec⟩
  · simp [hi, transmittedIn]
  · obtain ⟨-, -, rfl⟩ := exec_next_iff.mp hexec
    simp [effect_tx, transmittedBy_takeRequest, hi, transmittedIn]

/-- Settles O42, by induction on the number of steps. -/
theorem txTraceListsTheTransmittedBytesInOrder : Obligations.TxTraceListsTheTransmittedBytesInOrder := by
  intro k
  induction k with
  | zero => intro s t h; cases h; exact (List.append_nil _).symm
  | succ k ih =>
    intro s t h
    obtain ⟨u, hstep, hrun⟩ := run_succ_next h
    calc t.out.tx
        = u.out.tx ++ transmittedIn (history k u) := ih u t hrun
      _ = s.out.tx ++ (transmittedIn ((nextInstr s).map (fun i => (s, i))).toList ++ transmittedIn (history k u)) := by
          rw [step_tx hstep, List.append_assoc]
      _ = s.out.tx ++ transmittedIn (history (k + 1) s) := by
          rw [history_succ hstep, transmittedIn, transmittedIn, transmittedIn, List.flatMap_append]

end Sys2Proof.Machine

/-! LITMUS P5 (95_test_vectors.md): a delivery racing a poll. Three orders of the three requests are possible; each is run once, and a
schedule decides between them. -/

namespace Sys2Proof.Machine

/-- The inputs with requests of the bus master and the backend only. -/
def twoAgents (bus : List BusRequest) (backend : List BackendRequest) (sched : List Port) : Inputs :=
  { busQueue := bus, backendQueue := backend, hostQueue := [], internalQueue := [], schedule := sched,
    backendAnswers := [] }

theorem nextRequest_twoAgents (x : BusRequest) (xs : List BusRequest) (y : BackendRequest) (ys : List BackendRequest)
    (sched : List Port) :
    nextRequest (twoAgents (x :: xs) (y :: ys) sched) = some (.bus, .bus x) ∨
    nextRequest (twoAgents (x :: xs) (y :: ys) sched) = some (.backend, .backend y) := by
  obtain ⟨p, r, hnext, hfront⟩ := nextRequest_of_waiting (inp := twoAgents (x :: xs) (y :: ys) sched) (q := .bus) rfl
  cases p with
  | bus => cases hfront; exact .inl hnext
  | backend => cases hfront; exact .inr hnext
  | host | internal => cases hfront

theorem nextRequest_busOnly (x : BusRequest) (xs : List BusRequest) (sched : List Port) :
    nextRequest (twoAgents (x :: xs) [] sched) = some (.bus, .bus x) := by
  obtain ⟨p, r, hnext, hfront⟩ := nextRequest_of_waiting (inp := twoAgents (x :: xs) [] sched) (q := .bus) rfl
  cases p with
  | bus => cases hfront; exact hnext
  | backend | host | internal => cases hfront

theorem nextRequest_backendOnly (y : BackendRequest) (ys : List BackendRequest) (sched : List Port) :
    nextRequest (twoAgents [] (y :: ys) sched) = some (.backend, .backend y) := by
  obtain ⟨p, r, hnext, hfront⟩ := nextRequest_of_waiting (inp := twoAgents [] (y :: ys) sched) (q := .backend) rfl
  cases p with
  | backend => cases hfront; exact hnext
  | bus | host | internal => cases hfront

/-! One step for each of the race's requests. -/

section RaceSteps

variable {s : State}

theorem step_statusRead (hop : s.block.phase = .operating)
    (hnext : nextRequest s.inp = some (.bus, .bus (.read 0x04#32 4))) :
    step s = .next
      { s with
        out := { s.out with busReplies := s.out.busReplies ++ [.value 4 (s.block.status.setWidth 32)] }
        inp := takeFrom s.inp .bus } := by
  rw [step_eq_effect (i := .rdStatus 4) hop hnext rfl, effect, readResult_eq (by decide) 4 (by decide)]
  rfl

theorem step_dataRead_empty (hop : s.block.phase = .operating) (hfifo : s.block.rxFifo = [])
    (hnext : nextRequest s.inp = some (.bus, .bus (.read 0x00#32 4))) :
    step s = .next
      { s with
        out := { s.out with busReplies := s.out.busReplies ++ [.value 4 (s.block.data.setWidth 32)] }
        inp := takeFrom s.inp .bus } := by
  have hread : readData (s.takeRequest .bus) = s.takeRequest .bus := readData_nil hfifo
  rw [step_eq_effect (i := .rdData 4) hop hnext rfl, effect, readResult_eq (by decide) 4 (by decide), hread]
  rfl

theorem step_dataRead_last {b : Byte} (hop : s.block.phase = .operating) (hfifo : s.block.rxFifo = [b])
    (hnext : nextRequest s.inp = some (.bus, .bus (.read 0x00#32 4))) :
    step s = .next
      { block := { s.block with data := b, rxFifo := [], status := s.block.status &&& 0b01#2 }
        out := { s.out with busReplies := s.out.busReplies ++ [.value 4 (b.setWidth 32)] }
        inp := takeFrom s.inp .bus } := by
  have hread := readData_cons (s := s.takeRequest .bus) hfifo
  rw [step_eq_effect (i := .rdData 4) hop hnext rfl, effect, readResult_eq (by decide) 4 (by decide), hread]
  rfl

/-- A one-byte delivery into an empty FIFO, with RX_EN = 1 and RX_INT_EN = 0. -/
theorem step_delivery {b : Byte} (hop : s.block.phase = .operating) (hcontrol : s.block.control = 0x2#4)
    (hfifo : s.block.rxFifo = []) (hnext : nextRequest s.inp = some (.backend, .backend (.deposit [b]))) :
    step s = .next
      { block := { s.block with rxFifo := [b], status := s.block.status ||| 0b10#2 }
        out := { s.out with backendReplies := s.out.backendReplies ++ [1] }
        inp := takeFrom s.inp .backend } := by
  have hcount : acceptedCount (s.takeRequest .backend) [b] = 1 := by
    simp [acceptedCount, canAccept_eq, hcontrol, hfifo]
  rw [step_eq_effect (i := .deposit [b]) hop hnext rfl]
  congr 1
  apply state_ext <;> simp [effect, depositBytes_block, depositBytes_out, hcount, hfifo, hcontrol]

end RaceSteps

/-! The three orders. -/

/-- The block at the start of P5: the receiver is enabled without its interrupt and its FIFO is empty. -/
structure ReceiverIdle (c : PeripheralState) : Prop where
  operating : c.phase = .operating
  status : c.status = 0b01#2
  control : c.control = 0x2#4
  fifo : c.rxFifo = []

/-- P5's bus master: a STATUS read, then a DATA read. -/
def poll : List BusRequest := [.read 0x04#32 4, .read 0x00#32 4]

/-- P5's three requests pending, on block `c` with outputs `o`. -/
def raceStart (c : PeripheralState) (o : Outputs) (b : Byte) (sched : List Port) : State :=
  { block := c, out := o, inp := twoAgents poll [.deposit [b]] sched }

/-- P5's three requests served: the delivery's count is 1, and the two reads got `replies`. -/
def raceEnd (c : PeripheralState) (o : Outputs) (replies : List BusReply) (sched : List Port) : State :=
  { block := c
    out := { o with busReplies := o.busReplies ++ replies, backendReplies := o.backendReplies ++ [1] }
    inp := twoAgents [] [] sched.tail.tail.tail }

section RaceOrders

variable {c : PeripheralState} {o : Outputs} {b : Byte} {sched : List Port}

theorem run_deliveryFirst (h : ReceiverIdle c)
    (hfirst : nextRequest (twoAgents poll [.deposit [b]] sched) = some (.backend, .backend (.deposit [b]))) :
    run 3 (raceStart c o b sched) =
      .next (raceEnd { c with data := b } o [.value 4 3#32, .value 4 (b.setWidth 32)] sched) := by
  rw [run_succ_of_step (step_delivery h.operating h.control h.fifo hfirst),
    run_succ_of_step (step_statusRead h.operating (nextRequest_busOnly _ _ sched.tail)),
    run_succ_of_step (step_dataRead_last h.operating rfl (nextRequest_busOnly _ _ sched.tail.tail)), run_zero]
  simp [raceStart, raceEnd, poll, twoAgents, takeFrom, h.status, h.fifo]

theorem run_deliveryBetween (h : ReceiverIdle c)
    (hfirst : nextRequest (twoAgents poll [.deposit [b]] sched) = some (.bus, .bus (.read 0x04#32 4)))
    (hsecond : nextRequest (twoAgents [.read 0x00#32 4] [.deposit [b]] sched.tail) =
      some (.backend, .backend (.deposit [b]))) :
    run 3 (raceStart c o b sched) =
      .next (raceEnd { c with data := b } o [.value 4 1#32, .value 4 (b.setWidth 32)] sched) := by
  rw [run_succ_of_step (step_statusRead h.operating hfirst),
    run_succ_of_step (step_delivery h.operating h.control h.fifo hsecond),
    run_succ_of_step (step_dataRead_last h.operating rfl (nextRequest_busOnly _ _ sched.tail.tail)), run_zero]
  simp [raceStart, raceEnd, poll, twoAgents, takeFrom, h.status, h.fifo]

theorem run_deliveryLast (h : ReceiverIdle c)
    (hfirst : nextRequest (twoAgents poll [.deposit [b]] sched) = some (.bus, .bus (.read 0x04#32 4)))
    (hsecond : nextRequest (twoAgents [.read 0x00#32 4] [.deposit [b]] sched.tail) =
      some (.bus, .bus (.read 0x00#32 4))) :
    run 3 (raceStart c o b sched) =
      .next (raceEnd { c with status := 0b11#2, rxFifo := [b] } o
        [.value 4 1#32, .value 4 (c.data.setWidth 32)] sched) := by
  rw [run_succ_of_step (step_statusRead h.operating hfirst),
    run_succ_of_step (step_dataRead_empty h.operating h.fifo hsecond),
    run_succ_of_step (step_delivery h.operating h.control h.fifo (nextRequest_backendOnly _ _ sched.tail.tail)), run_zero]
  simp [raceStart, raceEnd, poll, twoAgents, takeFrom, h.status]

end RaceOrders

/-- Settles O46: whatever the schedule, the delivery is served before, between or after the two reads. -/
theorem deliveryRacingAPollHasThreeOutcomes : Obligations.DeliveryRacingAPollHasThreeOutcomes := by
  rintro ⟨c, o, inp⟩ b sched hop hstatus hcontrol hfifo rfl
  have hidle : ReceiverIdle c := ⟨hop, hstatus, hcontrol, hfifo⟩
  rcases nextRequest_twoAgents (.read 0x04#32 4) [.read 0x00#32 4] (.deposit [b]) [] sched with hbus | hbackend
  · rcases nextRequest_twoAgents (.read 0x00#32 4) [] (.deposit [b]) [] sched.tail with hbus' | hbackend'
    · exact ⟨_, run_deliveryLast hidle hbus hbus', rfl, rfl, .inr (.inr ⟨rfl, rfl⟩)⟩
    · exact ⟨_, run_deliveryBetween hidle hbus hbackend', rfl, rfl, .inr (.inl ⟨rfl, rfl⟩)⟩
  · exact ⟨_, run_deliveryFirst hidle hbackend, rfl, rfl, .inl ⟨rfl, rfl⟩⟩

/-- Settles O47: the schedule that serves the backend first, the one that serves it second, and the one that serves the bus twice. -/
theorem deliveryRacingAPollReachesEachOutcome : Obligations.DeliveryRacingAPollReachesEachOutcome := by
  rintro ⟨c, o, inp⟩ b hop hstatus hcontrol hfifo hinp
  have hidle : ReceiverIdle c := ⟨hop, hstatus, hcontrol, hfifo⟩
  have hstart (sched : List Port) :
      State.mk c o { inp with schedule := sched } = raceStart c o b sched :=
    congrArg (fun q : Inputs => State.mk c o { q with schedule := sched }) hinp
  have hfirst := run_deliveryFirst (o := o) (b := b) hidle (nextRequest_scheduled (p := .backend) (ps := []) rfl rfl)
  have hbetween := run_deliveryBetween (o := o) (b := b) hidle
    (nextRequest_scheduled (p := .bus) (ps := [.backend]) rfl rfl) (nextRequest_scheduled rfl rfl)
  have hlast := run_deliveryLast (o := o) (b := b) hidle
    (nextRequest_scheduled (p := .bus) (ps := [.bus]) rfl rfl) (nextRequest_scheduled rfl rfl)
  rw [← hstart] at hfirst hbetween hlast
  simp only [List.forall_mem_cons]
  exact ⟨⟨_, _, hfirst, rfl⟩, ⟨_, _, hbetween, rfl⟩, ⟨_, _, hlast, rfl⟩, by simp⟩

end Sys2Proof.Machine

/-! DECODE AND ENCODE (R51, R53 to R55): the two encoders, and what each port's requests select. -/

namespace Sys2Proof.Machine

theorem decodePort_read_legalSize {size : Nat} (h : legalSize size = true) (offset : Word) :
    decodePort (.bus (.read offset size)) = .ok
      (if offset = Config.offData then .rdData size
       else if offset = Config.offStatus then .rdStatus size
       else if offset = Config.offControl then .rdControl size
       else .rdInvalid offset size) :=
  (decodePort_read offset size).trans (withLegalSize_of h _)

theorem decodePort_write_legalSize {size : Nat} (h : legalSize size = true) (offset value : Word) :
    decodePort (.bus (.write offset size value)) = .ok
      (if offset = Config.offData then .wrData size value
       else if offset = Config.offStatus then .wrStatus size value
       else if offset = Config.offControl then .wrControl size value
       else .wrInvalid offset size value) :=
  (decodePort_write offset size value).trans (withLegalSize_of h _)

/-- The domain of the offset of RD_INVALID and WR_INVALID (R54's "any other"). -/
theorem not_isRegisterOffset_iff (offset : Word) :
    (!isRegisterOffset offset) = true ↔
      offset ≠ Config.offData ∧ offset ≠ Config.offStatus ∧ offset ≠ Config.offControl := by
  simp [isRegisterOffset, and_assoc]

theorem decode_of_selectOp {r : Request} {op : Op} (h : selectOp r.key = some op) : decode r = assemble op r := by
  simp only [decode, h]

/-- The two encoders agree: an operation's key and its port request decode alike, whether it is well-formed or not. On the bus
port the decoder goes through that very key; the seven label keys each have an exact row (R53). -/
theorem decode_encode_eq_decodePort (i : Instr) : decode (encode i) = decodePort (portRequestOf i) := by
  cases i with
  | rdData _ | rdStatus _ | rdControl _ | rdInvalid _ _ | wrData _ _ | wrStatus _ _ | wrControl _ _ | wrInvalid _ _ _ => rfl
  | deposit bytes =>
    have hkey : selectOp 0x200000001#36 = some .deposit := rfl
    exact decode_of_selectOp (r := encode (.deposit bytes)) hkey
  | writeData b =>
    have hkey : selectOp 0x600000001#36 = some .writeData := rfl
    exact decode_of_selectOp (r := encode (.writeData b)) hkey
  | canAccept | reset | popFront | raise | lower => rfl

theorem decodePort_portRequestOf {i : Instr} (h : i.wellFormed = true) : decodePort (portRequestOf i) = .ok i := by
  cases i with
  | rdData _ | rdStatus _ | rdControl _ => exact decodePort_read_legalSize h _
  | wrData _ _ | wrStatus _ _ | wrControl _ _ => exact decodePort_write_legalSize h _ _
  | rdInvalid offset size =>
    obtain ⟨hoffset, hsize⟩ := Bool.and_eq_true_iff.mp h
    obtain ⟨hdata, hstatus, hcontrol⟩ := (not_isRegisterOffset_iff offset).mp hoffset
    rw [portRequestOf, decodePort_read_legalSize hsize, if_neg hdata, if_neg hstatus, if_neg hcontrol]
  | wrInvalid offset size value =>
    obtain ⟨hoffset, hsize⟩ := Bool.and_eq_true_iff.mp h
    obtain ⟨hdata, hstatus, hcontrol⟩ := (not_isRegisterOffset_iff offset).mp hoffset
    rw [portRequestOf, decodePort_write_legalSize hsize, if_neg hdata, if_neg hstatus, if_neg hcontrol]
  | canAccept | deposit _ | reset | popFront | writeData _ | raise | lower => rfl

/-- Settles O27: the port gives the operation back by the dispatch of R54, and the key decodes as the port does. -/
theorem decodeOfEncodeIsTheOperation : Obligations.DecodeOfEncodeIsTheOperation :=
  fun i h => ⟨(decode_encode_eq_decodePort i).trans (decodePort_portRequestOf h), decodePort_portRequestOf h⟩

/-- Settles O24: the dispatch on the register offsets, with an offset compared as a number. -/
theorem busPortDecodesByTheWholeOffset : Obligations.BusPortDecodesByTheWholeOffset := by
  intro offset size value hlo hhi
  have hsize : legalSize size = true := (legalSize_iff size).mpr ⟨hlo, hhi⟩
  rw [decodePort_read_legalSize hsize, decodePort_write_legalSize hsize]
  simp only [BitVec.toNat_eq]
  exact ⟨rfl, rfl⟩

/-- A step fills no internal queue: taking a request only shortens one, and no operation touches it. -/
theorem step_internalQueue {s t : State} (hq : s.inp.internalQueue = []) (h : step s = .next t) :
    t.inp.internalQueue = [] := by
  rcases step_cases h with ⟨-, -, rfl⟩ | ⟨p, r, i, -, -, -, hexec⟩
  · exact hq
  · exact (exec_internalQueue hexec).trans (takeFrom_internalQueue hq p)

/-- Settles O28: an internal primitive is selected on the internal port only, and no step fills that port's queue. -/
theorem noAgentCanRequestAnInternalPrimitive : Obligations.NoAgentCanRequestAnInternalPrimitive := by
  refine ⟨fun r i hagent hdec => ?_, fun s t => step_internalQueue⟩
  rw [← Bool.not_eq_true, decodePort_isInternal hdec]
  rintro ⟨c, hc⟩
  exact hagent c hc

/-- Settles O26: each word's key meets its own row. -/
theorem tableWordsDecodeToTheirRows : Obligations.TableWordsDecodeToTheirRows := by
  unfold Obligations.TableWordsDecodeToTheirRows
  decide

end Sys2Proof.Machine

/-! THE BUS ADAPTER (R70 to R78): each bus operation's whole next state, and the dispatch a step on the bus port performs. -/

namespace Sys2Proof.Machine

theorem busAccess_legalSize {s : State} {size : Nat} (hop : s.block.phase = .operating)
    (h : 1 ≤ size ∧ size ≤ 4) (t : State) : busAccess s size t = .next t :=
  busAccess_next_iff.mpr ⟨hop, h, rfl⟩

/-- In phase OPERATING a bus operation of a legal size has its effect. -/
theorem exec_eq_effect {s : State} {i : Instr} {size : Nat} (hi : accessSize i = some size)
    (hop : s.block.phase = .operating) (hlo : 1 ≤ size) (hhi : size ≤ 4) : exec i s = .next (effect s i) := by
  refine exec_next_iff.mpr ⟨.inr hop, fun n hn => ?_, rfl⟩
  cases hi.symm.trans hn
  exact ⟨hlo, hhi⟩

/-! The reads. -/

/-- INV2 and INV3 fix both bits of STATUS. -/
theorem BlockInv.status_eq {b : PeripheralState} (h : BlockInv b) :
    b.status = if b.rxFifo = [] then 0b01#2 else 0b11#2 := by
  have of_flags : ∀ v : BitVec 2, v[0] = true → v = if v[1] = true then 0b11#2 else 0b01#2 := by decide
  rw [of_flags b.status h.txReady]
  simp only [h.rxAvail_iff, ne_eq, ite_not]

/-- Settles O7: the read is one answer and nothing else, and under the invariant STATUS is one of two values. -/
theorem rdStatusReturnsTheFlagsOnly : Obligations.RdStatusReturnsTheFlagsOnly := by
  intro size s hop hlo hhi
  refine ⟨exec_eq_effect rfl hop hlo hhi, fun hinv => ?_⟩
  have hblock : BlockInv s.block := ((inv_iff s).mp hinv hop).1
  have hread : readResult size s.block.status = s.block.status.setWidth 32 := readResult_eq (by decide) size hlo _
  refine hread.trans ?_
  rw [hblock.status_eq]
  split <;> rfl

/-- Settles O5: the pop and the latch are `readData`'s on a non-empty FIFO. -/
theorem rdDataPopsTheFrontByte : Obligations.RdDataPopsTheFrontByte := by
  intro size s b rest hop hlo hhi hfifo
  rw [exec_eq_effect rfl hop hlo hhi, effect, readData_cons hfifo]
  rfl

/-- Settles O6: on an empty FIFO `readData` leaves the state as it is. -/
theorem rdDataOnAnEmptyFifoReturnsTheLatch : Obligations.RdDataOnAnEmptyFifoReturnsTheLatch := by
  intro size s hop hlo hhi hfifo
  rw [exec_eq_effect rfl hop hlo hhi, effect, readData_nil hfifo]
  rfl

/-- Settles O8. -/
theorem rdControlReturnsTheControlBitsOnly : Obligations.RdControlReturnsTheControlBitsOnly :=
  fun _ _ hop hlo hhi => exec_eq_effect rfl hop hlo hhi

/-- Settles O9. -/
theorem rdInvalidReturnsZeroAndLogs : Obligations.RdInvalidReturnsZeroAndLogs :=
  fun _ _ _ hop hlo hhi => exec_eq_effect rfl hop hlo hhi

/-! The writes. -/

/-- Settles O11: the byte is `value[7:0]`, and the rest is the transmitter's with TX_EN = 1. -/
theorem wrDataWithTxEnTransmits : Obligations.WrDataWithTxEnTransmits := by
  intro size value s hop hlo hhi hen
  rw [exec_eq_effect rfl hop hlo hhi, effect, dataOperand_eq, transmitByte_enabled hen]
  rfl

/-- Settles O13. -/
theorem wrStatusIsLoggedAndIgnored : Obligations.WrStatusIsLoggedAndIgnored :=
  fun _ _ _ hop hlo hhi => exec_eq_effect rfl hop hlo hhi

/-- Settles O14: the masked operand is `value[3:0]`. -/
theorem wrControlReplacesTheFourBitsOnly : Obligations.WrControlReplacesTheFourBitsOnly := by
  intro size value s hop hlo hhi
  rw [exec_eq_effect rfl hop hlo hhi, effect, controlOperand_eq]
  rfl

/-- Settles O15. -/
theorem wrInvalidIsLoggedAndIgnored : Obligations.WrInvalidIsLoggedAndIgnored :=
  fun _ _ _ _ hop hlo hhi => exec_eq_effect rfl hop hlo hhi

/-! The dispatch (R70). -/

theorem step_read {s : State} {offset : Word} {size : Nat} (hsize : 1 ≤ size ∧ size ≤ 4)
    (hnext : nextRequest s.inp = some (.bus, .bus (.read offset size))) :
    step s = busRead offset size (s.takeRequest .bus) := by
  rw [step_of_decode_ok hnext (decodePort_read_legalSize ((legalSize_iff size).mpr hsize) offset), busRead]
  split_ifs <;> rfl

theorem step_write {s : State} {offset value : Word} {size : Nat} (hsize : 1 ≤ size ∧ size ≤ 4)
    (hnext : nextRequest s.inp = some (.bus, .bus (.write offset size value))) :
    step s = busWrite offset size value (s.takeRequest .bus) := by
  rw [step_of_decode_ok hnext (decodePort_write_legalSize ((legalSize_iff size).mpr hsize) offset value), busWrite]
  split_ifs <;> rfl

theorem transmitByte_busReplies (s : State) (b : Byte) : (transmitByte s b).out.busReplies = s.out.busReplies := by
  cases hen : s.block.control[0] with
  | false => rw [transmitByte_disabled hen]
  | true => rw [transmitByte_enabled hen]

/-- `o` completes a bus transaction taken in state `s` with the one answer `r`. -/
def Completes (s : State) (r : BusReply) (o : Host.Outcome State Fault Refusal) : Prop :=
  ∃ t, o = .next t ∧ t.out.busReplies = s.out.busReplies ++ [r]

/-- A bus operation that answers once, after work that answers nothing, completes. -/
theorem busAccess_completes {s u : State} {size : Nat} (hop : s.block.phase = .operating)
    (hsize : 1 ≤ size ∧ size ≤ 4) (hu : u.out.busReplies = s.out.busReplies) (r : BusReply) :
    Completes s r (busAccess s size (u.replyBus r)) :=
  ⟨u.replyBus r, busAccess_legalSize hop hsize _, congrArg (· ++ [r]) hu⟩

theorem busRead_completes {s : State} {size : Nat} (hop : s.block.phase = .operating)
    (hsize : 1 ≤ size ∧ size ≤ 4) (offset : Word) :
    ∃ value, Completes s (.value size value) (busRead offset size s) := by
  unfold busRead
  split_ifs
  · exact ⟨_, busAccess_completes hop hsize (congrArg Outputs.busReplies (readData_out s)) _⟩
  · exact ⟨_, busAccess_completes hop hsize rfl _⟩
  · exact ⟨_, busAccess_completes hop hsize rfl _⟩
  · exact ⟨_, busAccess_completes (u := s.takeAnomaly _ _) hop hsize rfl _⟩

theorem busWrite_completes {s : State} {size : Nat} (hop : s.block.phase = .operating)
    (hsize : 1 ≤ size ∧ size ≤ 4) (offset value : Word) :
    Completes s .done (busWrite offset size value s) := by
  unfold busWrite
  split_ifs
  · exact busAccess_completes hop hsize (transmitByte_busReplies s (dataOperand value)) _
  · exact busAccess_completes (u := s.takeAnomaly _ _) hop hsize rfl _
  · exact busAccess_completes (u := s.setControl (controlOperand value)) hop hsize rfl _
  · exact busAccess_completes (u := s.takeAnomaly _ _) hop hsize rfl _

/-- Settles O25: the decoder's rows are R70's comparisons, and every branch of the dispatch answers once. -/
theorem stepOnTheBusPortIsTheBusDispatch : Obligations.StepOnTheBusPortIsTheBusDispatch := by
  refine ⟨fun s offset size hlo hhi hnext => ?_, fun s offset size value hlo hhi hnext => ?_⟩
  · have hstep := step_read ⟨hlo, hhi⟩ hnext
    refine ⟨hstep, fun hop => ?_⟩
    obtain ⟨value, t, hread, hreply⟩ := busRead_completes (s := s.takeRequest .bus) hop ⟨hlo, hhi⟩ offset
    exact ⟨t, value, hstep.trans hread, hreply⟩
  · have hstep := step_write ⟨hlo, hhi⟩ hnext
    refine ⟨hstep, fun hop => ?_⟩
    obtain ⟨t, hwrite, hreply⟩ := busWrite_completes (s := s.takeRequest .bus) hop ⟨hlo, hhi⟩ offset value
    exact ⟨t, hstep.trans hwrite, hreply⟩

end Sys2Proof.Machine

/-! THE RECEIVE FIFO (R90 to R94): each operation's whole next state, and the order of the bytes over operations, steps and runs. -/

namespace Sys2Proof.Machine

/-- In phase OPERATING an operation that is no bus access has its effect. -/
theorem exec_eq_effect_of_no_access {s : State} {i : Instr} (hi : accessSize i = none)
    (hop : s.block.phase = .operating) : exec i s = .next (effect s i) :=
  exec_next_iff.mpr ⟨.inr hop, by simp [hi], rfl⟩

/-! What each shared operation does to the queue. -/

theorem depositBytes_rxFifo (s : State) (bytes : List Byte) :
    (depositBytes s bytes).block.rxFifo = s.block.rxFifo ++ bytes.take (acceptedCount s bytes) := by
  rw [depositBytes_block]

/-- The bytes a DEPOSIT enqueues are those that fit (R91), whether or not the offered ones run out first. -/
theorem take_acceptedCount (s : State) (bytes : List Byte) :
    bytes.take (acceptedCount s bytes) = enqueuedBy s (.deposit bytes) := by
  rw [acceptedCount, canAccept_eq, enqueuedBy]
  cases s.block.control[1] with
  | false => simp
  | true => simp [Nat.min_comm]

/-- A pop takes off the front byte, if there is one (R93). -/
theorem take_one_append_popFront (s : State) :
    s.block.rxFifo.take 1 ++ (popFront s).2.block.rxFifo = s.block.rxFifo := by
  cases hf : s.block.rxFifo with
  | nil => rw [popFront_nil hf, hf]; rfl
  | cons b rest => rw [popFront_cons hf]; rfl

theorem take_one_append_readData (s : State) :
    s.block.rxFifo.take 1 ++ (readData s).block.rxFifo = s.block.rxFifo := by
  cases hf : s.block.rxFifo with
  | nil => rw [readData_nil hf, hf]; rfl
  | cons b rest => rw [readData_cons hf]; rfl

theorem transmitByte_rxFifo (s : State) (b : Byte) : (transmitByte s b).block.rxFifo = s.block.rxFifo := by
  cases hen : s.block.control[0] with
  | false => rw [transmitByte_disabled hen]
  | true => rw [transmitByte_enabled hen]

/-! The order of the bytes (R94). -/

/-- One operation: it appends what it enqueues and removes what it pops from the front. -/
theorem effect_rxFifo (s : State) {i : Instr} (hi : i ≠ .reset) :
    s.block.rxFifo ++ enqueuedBy s i = poppedBy s i ++ (effect s i).block.rxFifo := by
  cases i with
  | reset => exact absurd rfl hi
  | deposit bytes => rw [← take_acceptedCount, ← depositBytes_rxFifo]; rfl
  | rdData n => exact (List.append_nil _).trans (take_one_append_readData s).symm
  | popFront => exact (List.append_nil _).trans (take_one_append_popFront s).symm
  | wrData n v => exact (List.append_nil _).trans (transmitByte_rxFifo s (dataOperand v)).symm
  | writeData b => exact (List.append_nil _).trans (transmitByte_rxFifo s b).symm
  | rdStatus _ | rdControl _ | rdInvalid _ _ | wrStatus _ _ | wrControl _ _ | wrInvalid _ _ _ | canAccept | raise
  | lower => exact List.append_nil _

theorem enqueuedIn_append (h h' : List (State × Instr)) : enqueuedIn (h ++ h') = enqueuedIn h ++ enqueuedIn h' :=
  List.flatMap_append

theorem poppedIn_append (h h' : List (State × Instr)) : poppedIn (h ++ h') = poppedIn h ++ poppedIn h' :=
  List.flatMap_append

/-- What an operation enqueues and pops does not depend on the requests that wait. -/
theorem enqueuedBy_takeRequest (s : State) (p : Port) (i : Instr) :
    enqueuedBy (s.takeRequest p) i = enqueuedBy s i := rfl

theorem poppedBy_takeRequest (s : State) (p : Port) (i : Instr) :
    poppedBy (s.takeRequest p) i = poppedBy s i := rfl

/-- The operation of the next step, if it performs one, as the first part of a history. -/
def firstOf (s : State) : List (State × Instr) := ((nextInstr s).map (fun i => (s, i))).toList

theorem step_rxFifo {s t : State} (h : step s = .next t) (hreset : nextInstr s ≠ some .reset) :
    s.block.rxFifo ++ enqueuedIn (firstOf s) = poppedIn (firstOf s) ++ t.block.rxFifo := by
  rcases step_cases h with ⟨-, hi, rfl⟩ | ⟨p, r, i, -, -, hi, hexec⟩
  · simp [firstOf, hi, enqueuedIn, poppedIn]
  · obtain ⟨-, -, rfl⟩ := exec_next_iff.mp hexec
    have hne : i ≠ .reset := fun h => hreset (h ▸ hi)
    simpa [firstOf, hi, enqueuedIn, poppedIn, enqueuedBy_takeRequest, poppedBy_takeRequest] using
      effect_rxFifo (s.takeRequest p) hne

/-- Settles O43, by induction on the number of steps: the queue between the first step and the others cancels out. -/
theorem bytesLeaveInTheOrderTheyArrived : Obligations.BytesLeaveInTheOrderTheyArrived := by
  intro k
  induction k with
  | zero => intro s t h _; cases h; exact List.append_nil _
  | succ k ih =>
    intro s t h hhist
    obtain ⟨u, hstep, hrun⟩ := run_succ_next h
    have hsplit : history (k + 1) s = firstOf s ++ history k u := history_succ hstep
    rw [hsplit] at hhist ⊢
    have hfirst : nextInstr s ≠ some .reset := fun hi => hhist (s, .reset) (by simp [firstOf, hi]) rfl
    have hrest := ih u t hrun fun x hx => hhist x (List.mem_append_right _ hx)
    calc s.block.rxFifo ++ enqueuedIn (firstOf s ++ history k u)
        = (s.block.rxFifo ++ enqueuedIn (firstOf s)) ++ enqueuedIn (history k u) := by
          rw [enqueuedIn_append, List.append_assoc]
      _ = poppedIn (firstOf s) ++ (u.block.rxFifo ++ enqueuedIn (history k u)) := by
          rw [step_rxFifo hstep hfirst, List.append_assoc]
      _ = poppedIn (firstOf s ++ history k u) ++ t.block.rxFifo := by
          rw [hrest, poppedIn_append, List.append_assoc]

/-! The operations. -/

/-- Settles O17. -/
theorem canAcceptReturnsTheFreeSpace : Obligations.CanAcceptReturnsTheFreeSpace :=
  fun _ hop => exec_eq_effect_of_no_access rfl hop

/-- Settles O18: the count R91 names is `acceptedCount`, and the laws of `depositBytes` say the rest. -/
theorem depositEnqueuesWhatFits : Obligations.DepositEnqueuesWhatFits := by
  intro bytes s hop n
  have hn : acceptedCount s bytes = n := rfl
  rw [exec_eq_effect_of_no_access rfl hop, effect, hn]
  congr 1
  apply state_ext
  · simp only [replyBackend_block, depositBytes_block, hn, and_assoc]
  · simp only [replyBackend_out, depositBytes_out, hn, and_assoc]
  · exact depositBytes_inp s bytes

/-- A DEPOSIT of no more than CAN_ACCEPT would answer takes every byte it is offered. -/
theorem exec_deposit_of_fits {s t : State} {bytes : List Byte} (h : exec (.deposit bytes) s = .next t)
    (hfit : bytes.length ≤ canAccept s) :
    t.block.rxFifo = s.block.rxFifo ++ bytes ∧
    t.out.backendReplies = s.out.backendReplies ++ [bytes.length] := by
  obtain ⟨-, -, rfl⟩ := exec_next_iff.mp h
  have hall : acceptedCount s bytes = bytes.length := Nat.min_eq_left hfit
  constructor
  · rw [effect, replyBackend_block, depositBytes_rxFifo, hall, List.take_length]
  · rw [effect, replyBackend_out, depositBytes_out, hall]

/-- Settles O19: CAN_ACCEPT leaves the block as it is, so its answer still holds when the DEPOSIT runs. -/
theorem deliveryWithinCanAcceptLosesNothing : Obligations.DeliveryWithinCanAcceptLosesNothing := by
  intro s t u bytes n hcan hreply hlen hdeposit
  obtain ⟨-, -, rfl⟩ := exec_next_iff.mp hcan
  have hn : canAccept s = n := by simpa [effect] using hreply
  exact exec_deposit_of_fits hdeposit (hlen.trans_eq hn.symm)

/-- Settles O20: the two cases of `popFront`. -/
theorem popFrontYieldsTheFrontByte : Obligations.PopFrontYieldsTheFrontByte := by
  intro s hop
  rw [exec_eq_effect_of_no_access rfl hop, effect]
  constructor
  · intro hf
    rw [popFront_nil hf]
    rfl
  · intro b rest hf
    rw [popFront_cons hf]
    rfl

end Sys2Proof.Machine

/-! THE TRANSMIT PATH (R100): a DATA write with TX_EN = 0, and WRITE_DATA in both cases. -/

namespace Sys2Proof.Machine

/-- Settles O12: with TX_EN = 0 the transmitter leaves the state as it is, so only the answer is added. -/
theorem wrDataWithoutTxEnIsDiscarded : Obligations.WrDataWithoutTxEnIsDiscarded := by
  intro size value s hop hlo hhi hen
  rw [exec_eq_effect rfl hop hlo hhi, effect, transmitByte_disabled hen]
  rfl

/-- Settles O21: WRITE_DATA is the transmitter alone, with its two cases on TX_EN. -/
theorem writeDataForwardsOrDiscards : Obligations.WriteDataForwardsOrDiscards := by
  intro b s hop
  rw [exec_eq_effect_of_no_access rfl hop, effect]
  constructor
  · intro hen
    rw [transmitByte_disabled hen]
  · intro hen
    rw [transmitByte_enabled hen]

end Sys2Proof.Machine

/-! THE INTERRUPT CONTROLLER (R105 to R108): RAISE and LOWER run alone, and the level of the line after each operation of a port. -/

namespace Sys2Proof.Machine

/-- Settles O22. -/
theorem raiseSetsTheLine : Obligations.RaiseSetsTheLine :=
  fun _ hop => exec_eq_effect_of_no_access rfl hop

/-- Settles O23. -/
theorem lowerClearsTheLine : Obligations.LowerClearsTheLine :=
  fun _ hop => exec_eq_effect_of_no_access rfl hop

/-- The raise condition of the Transmit Path (R107). -/
theorem transmitByte_irqLevel_iff (s : State) (d : Byte) :
    (transmitByte s d).block.irqLevel = true ↔
      s.block.irqLevel = true ∨ (s.block.control[0] = true ∧ s.block.control[2] = true) := by
  cases h0 : s.block.control[0] with
  | false => simp [transmitByte_disabled h0]
  | true => simp [transmitByte_enabled h0, or_comm]

/-- The raise condition of the Receive FIFO (R107). -/
theorem depositBytes_irqLevel_iff (s : State) (bytes : List Byte) :
    (depositBytes s bytes).block.irqLevel = true ↔
      s.block.irqLevel = true ∨
      (bytes ≠ [] ∧ s.block.rxFifo = [] ∧ s.block.control[1] = true ∧ s.block.control[3] = true) := by
  rw [depositBytes_block]
  by_cases hf : s.block.rxFifo = []
  · simp only [hf, true_and, acceptedCount_pos_of_empty hf, and_assoc, Bool.if_true_left, Bool.or_eq_true,
      decide_eq_true_eq, or_comm]
  · simp [hf]

/-- Settles O37, operation by operation: WR_DATA and DEPOSIT are the two that raise, RESET the one that lowers. -/
theorem lineIsRaisedAndLoweredOnlyAsListed : Obligations.LineIsRaisedAndLoweredOnlyAsListed := by
  intro i s t hport h
  obtain ⟨-, -, rfl⟩ := exec_next_iff.mp h
  refine ⟨fun hreset => by rw [hreset]; rfl, fun hreset => ?_⟩
  cases i with
  | reset => exact absurd rfl hreset
  | wrData n v => simp [effect, transmitByte_irqLevel_iff]
  | deposit bytes => simp [effect, depositBytes_irqLevel_iff, List.ne_nil_iff_exists_cons]
  | rdData n => simp [effect, readData_irqLevel]
  | rdStatus _ | rdControl _ | rdInvalid _ _ | wrStatus _ _ | wrControl _ _ | wrInvalid _ _ _ | canAccept =>
    simp [effect]
  | popFront | writeData _ | raise | lower => cases hport

end Sys2Proof.Machine

/-! THE BACKEND'S ANSWERS (R23, R120, decision D15). Forgetting the answers commutes with every operation, step and run: a transmit event
only takes one off the supply, and an empty supply stays empty. So two runs that forget to the same state end alike. -/

namespace Sys2Proof.Machine

/-- An outcome but for what the backend will answer. -/
def outcomeWithoutAnswers : Host.Outcome State Fault Refusal → Host.Outcome State Fault Refusal
  | .next t => .next t.withoutAnswers
  | .fault f => .fault f
  | .refused r => .refused r

theorem sameButAnswers_of_eq {o o' : Host.Outcome State Fault Refusal}
    (h : outcomeWithoutAnswers o = outcomeWithoutAnswers o') : sameButAnswers o o' := by
  match o, o' with
  | .next _, .next _ => exact Host.Outcome.next.inj h
  | .refused _, .refused _ => exact Host.Outcome.refused.inj h
  | .next _, .refused _ | .refused _, .next _ => cases h
  | .fault f, _ | _, .fault f => cases f

/-! The shared operations. -/

theorem transmitByte_withoutAnswers (s : State) (b : Byte) :
    transmitByte s.withoutAnswers b = (transmitByte s b).withoutAnswers := by
  cases hen : s.block.control[0] with
  | false => rw [transmitByte_disabled hen, transmitByte_disabled (s := s.withoutAnswers) hen]
  | true =>
    rw [transmitByte_enabled hen, transmitByte_enabled (s := s.withoutAnswers) hen]
    rfl

theorem popFront_withoutAnswers (s : State) :
    popFront s.withoutAnswers = ((popFront s).1, (popFront s).2.withoutAnswers) := by
  cases hf : s.block.rxFifo with
  | nil => rw [popFront_nil hf, popFront_nil (s := s.withoutAnswers) hf]
  | cons b rest =>
    rw [popFront_cons hf, popFront_cons (s := s.withoutAnswers) hf]
    rfl

theorem readData_withoutAnswers (s : State) : readData s.withoutAnswers = (readData s).withoutAnswers := by
  cases hf : s.block.rxFifo with
  | nil => rw [readData_nil hf, readData_nil (s := s.withoutAnswers) hf]
  | cons b rest =>
    rw [readData_cons hf, readData_cons (s := s.withoutAnswers) hf]
    rfl

theorem depositBytes_withoutAnswers (s : State) (bytes : List Byte) :
    depositBytes s.withoutAnswers bytes = (depositBytes s bytes).withoutAnswers := by
  apply state_ext
  · exact (depositBytes_block s.withoutAnswers bytes).trans (depositBytes_block s bytes).symm
  · exact (depositBytes_out s.withoutAnswers bytes).trans (depositBytes_out s bytes).symm
  · simp [State.withoutAnswers]

/-! Operations, steps and runs. -/

theorem effect_withoutAnswers (s : State) (i : Instr) :
    effect s.withoutAnswers i = (effect s i).withoutAnswers := by
  cases i with
  | rdData n => rw [effect, readData_withoutAnswers]; rfl
  | wrData n v => rw [effect, transmitByte_withoutAnswers]; rfl
  | writeData b => exact transmitByte_withoutAnswers s b
  | deposit bytes => rw [effect, depositBytes_withoutAnswers]; rfl
  | popFront => rw [effect, popFront_withoutAnswers]; rfl
  | rdStatus _ | rdControl _ | rdInvalid _ _ | wrStatus _ _ | wrControl _ _ | wrInvalid _ _ _ | canAccept | reset
  | raise | lower => rfl

/-- Every bus operation is its effect behind the guard on phase and size. -/
theorem exec_eq_busAccess {i : Instr} {size : Nat} (hi : accessSize i = some size) (s : State) :
    exec i s = busAccess s size (effect s i) := by
  cases i with
  | rdData _ | rdStatus _ | rdControl _ | rdInvalid _ _ | wrData _ _ | wrStatus _ _ | wrControl _ _ | wrInvalid _ _ _ =>
    cases hi
    rfl
  | canAccept | deposit _ | reset | popFront | writeData _ | raise | lower => cases hi

/-- Every other operation but RESET is its effect behind the guard on the phase. -/
theorem exec_eq_whenOperating {i : Instr} (hi : accessSize i = none) (hreset : i ≠ .reset) (s : State) :
    exec i s = whenOperating s (effect s i) := by
  cases i with
  | rdData _ | rdStatus _ | rdControl _ | rdInvalid _ _ | wrData _ _ | wrStatus _ _ | wrControl _ _ | wrInvalid _ _ _ =>
    cases hi
  | reset => exact absurd rfl hreset
  | canAccept | deposit _ | popFront | writeData _ | raise | lower => rfl

theorem busAccess_withoutAnswers (s t : State) (size : Nat) :
    busAccess s.withoutAnswers size t.withoutAnswers = outcomeWithoutAnswers (busAccess s size t) := by
  simp only [busAccess, apply_ite outcomeWithoutAnswers]
  rfl

theorem whenOperating_withoutAnswers (s t : State) :
    whenOperating s.withoutAnswers t.withoutAnswers = outcomeWithoutAnswers (whenOperating s t) := by
  simp only [whenOperating, apply_ite outcomeWithoutAnswers]
  rfl

theorem exec_withoutAnswers (i : Instr) (s : State) :
    exec i s.withoutAnswers = outcomeWithoutAnswers (exec i s) := by
  cases hi : accessSize i with
  | some size =>
    rw [exec_eq_busAccess hi, exec_eq_busAccess hi, effect_withoutAnswers, busAccess_withoutAnswers]
  | none =>
    by_cases hreset : i = .reset
    · subst hreset; rfl
    · rw [exec_eq_whenOperating hi hreset, exec_eq_whenOperating hi hreset, effect_withoutAnswers,
        whenOperating_withoutAnswers]

/-- Which request is taken next does not depend on the answers. -/
theorem nextRequest_withoutAnswers (s : State) : nextRequest s.withoutAnswers.inp = nextRequest s.inp := rfl

theorem takeRequest_withoutAnswers (s : State) (p : Port) :
    s.withoutAnswers.takeRequest p = (s.takeRequest p).withoutAnswers := by
  cases p <;> rfl

theorem step_withoutAnswers (s : State) : step s.withoutAnswers = outcomeWithoutAnswers (step s) := by
  cases hnext : nextRequest s.inp with
  | none =>
    simp only [step, nextRequest_withoutAnswers, hnext]
    rfl
  | some pr =>
    obtain ⟨p, r⟩ := pr
    have hnext' := (nextRequest_withoutAnswers s).trans hnext
    cases hdec : decodePort r with
    | ok i =>
      rw [step_of_decode_ok hnext hdec, step_of_decode_ok hnext' hdec, takeRequest_withoutAnswers, exec_withoutAnswers]
    | error e =>
      rw [step_of_decode_error hnext hdec, step_of_decode_error hnext' hdec]
      rfl

theorem run_withoutAnswers (k : Nat) (s : State) :
    run k s.withoutAnswers = outcomeWithoutAnswers (run k s) := by
  induction k generalizing s with
  | zero => rfl
  | succ k ih =>
    rw [run, run, step_withoutAnswers]
    cases step s with
    | next t => exact ih t
    | fault f => rfl
    | refused r => rfl

/-- Settles O45: WR_DATA's whole next state is known and no answer is in it, and a run may forget the answers at its start or at its end. -/
theorem backendAnswersAreReadByNothing : Obligations.BackendAnswersAreReadByNothing := by
  constructor
  · intro size value s answers hop hlo hhi hen
    exact ⟨_, wrDataWithTxEnTransmits size value _ hop hlo hhi hen, rfl, txReady_or_txReady s.block.status⟩
  · intro k s u hsame
    apply sameButAnswers_of_eq
    rw [← run_withoutAnswers, ← run_withoutAnswers, hsame]

end Sys2Proof.Machine

/-! THE DIAGNOSTIC EVENTS (R115, R116, decision D13): what each operation appends to `diag_out`. -/

namespace Sys2Proof.Machine

theorem transmitByte_diag (s : State) (b : Byte) : (transmitByte s b).out.diag = s.out.diag := by
  cases hen : s.block.control[0] with
  | false => rw [transmitByte_disabled hen]
  | true => rw [transmitByte_enabled hen]

theorem depositBytes_diag (s : State) (bytes : List Byte) : (depositBytes s bytes).out.diag = s.out.diag := by
  rw [depositBytes_out]

/-- A class that logs nothing (E3, E4) logs nothing whether or not the operation falls under it. -/
theorem bind_loggedKind_ite {a : Anomaly} (ha : loggedKind a = none) (c : Prop) [Decidable c] :
    (if c then some a else none).bind loggedKind = none := by
  split
  · exact ha
  · rfl

/-- From `s` to `t` one diagnostic event of kind `k` is appended, or none if `k` is `none`. -/
def LogsKind (s t : State) (k : Option DiagKind) : Prop :=
  t.out.diag.map DiagEvent.kind = s.out.diag.map DiagEvent.kind ++ k.toList

theorem logsKind_none {s t : State} {k : Option DiagKind} (hdiag : t.out.diag = s.out.diag) (hk : k = none) :
    LogsKind s t k := by
  rw [LogsKind, hdiag, hk]
  exact (List.append_nil _).symm

theorem effect_logsKind (s : State) (i : Instr) :
    LogsKind s (effect s i) ((anomalyOf i s).bind loggedKind) := by
  cases i with
  | rdInvalid _ _ | wrInvalid _ _ _ | wrStatus _ _ => exact List.map_append
  | deposit bytes => exact logsKind_none (depositBytes_diag s bytes) (bind_loggedKind_ite rfl _)
  | wrData n v => exact logsKind_none (transmitByte_diag s (dataOperand v)) (bind_loggedKind_ite rfl _)
  | writeData b => exact logsKind_none (transmitByte_diag s b) (bind_loggedKind_ite rfl _)
  | rdData n => exact logsKind_none (by simp [effect]) rfl
  | popFront => exact logsKind_none (by simp [effect, popFront_out]) rfl
  | rdStatus _ | rdControl _ | wrControl _ _ | canAccept | reset | raise | lower => exact logsKind_none rfl rfl

/-- Taking an anomaly of class E1 or E2 leaves `S` as it is (R124). -/
theorem effect_block_of_logged {s : State} {i : Instr}
    (h : anomalyOf i s = some .invalidAddress ∨ anomalyOf i s = some .invalidWriteTarget) :
    (effect s i).block = s.block := by
  cases i with
  | rdInvalid _ _ | wrInvalid _ _ _ | wrStatus _ _ => rfl
  | deposit _ | wrData _ _ | writeData _ | rdData _ | rdStatus _ | rdControl _ | wrControl _ _ | canAccept | reset
  | popFront | raise | lower => simp [anomalyOf] at h

/-- Settles O41, operation by operation. -/
theorem diagnosticEventsAreThoseOfTheAnomaly : Obligations.DiagnosticEventsAreThoseOfTheAnomaly := by
  intro i s t h
  obtain ⟨-, -, rfl⟩ := exec_next_iff.mp h
  exact ⟨effect_logsKind s i, effect_block_of_logged⟩

end Sys2Proof.Machine

/-! RESET, PHASE AND HAZARDS (R135, R137, R139, R147): what RESET leaves, that the block stays in phase OPERATING, that every request
with a meaning has its step there, and that only RESET and a pop remove queued bytes. -/

namespace Sys2Proof.Machine

/-- Settles O1: the guards do not stand before RESET, and `resetBlock` writes every field of the block. -/
theorem resetFromAnyState : Obligations.ResetFromAnyState :=
  fun s => congrArg Host.Outcome.next (resetBlock_eq s)

/-- RESET sets the phase OPERATING, and every other operation keeps it (R137). -/
theorem effect_operating {s : State} (i : Instr) (h : s.block.phase = .operating) :
    (effect s i).block.phase = .operating := by
  by_cases hi : i = .reset
  · subst hi
    exact congrArg (fun t => t.block.phase) (resetBlock_eq s)
  · exact (effect_phase hi).trans h

/-- Settles O4: taking a request leaves the block alone, and no operation leaves the phase. -/
theorem noStepLeavesPhaseOperating : Obligations.NoStepLeavesPhaseOperating := by
  intro s t hop h
  rcases step_cases h with ⟨-, -, rfl⟩ | ⟨p, r, i, -, -, -, hexec⟩
  · exact hop
  · obtain ⟨-, -, rfl⟩ := exec_next_iff.mp hexec
    exact effect_operating (s := s.takeRequest p) i hop

/-! Progress (R147). -/

/-- A bus request the block gives a meaning: no fetch (decision D19), and of a legal size (decision D5). -/
def HasMeaning : BusRequest → Prop
  | .read _ size | .write _ size _ => 1 ≤ size ∧ size ≤ 4
  | .fetch _ _ => False

theorem decodePort_bus_of_hasMeaning {x : BusRequest} (h : HasMeaning x) : ∃ i, decodePort (.bus x) = .ok i := by
  cases x with
  | read offset size => exact ⟨_, decodePort_read_legalSize ((legalSize_iff size).mpr h) offset⟩
  | write offset size value => exact ⟨_, decodePort_write_legalSize ((legalSize_iff size).mpr h) offset value⟩
  | fetch offset size => exact h.elim

/-- Only the bus port has requests that select no operation (R51). -/
theorem decodePort_of_frontRequest {inp : Inputs} {p : Port} {r : PortRequest}
    (hbus : ∀ x, inp.busQueue.head? = some x → HasMeaning x) (hfront : frontRequest inp p = some r) :
    ∃ i, decodePort r = .ok i := by
  cases p with
  | bus =>
    obtain ⟨x, hx, rfl⟩ := Option.map_eq_some_iff.mp hfront
    exact decodePort_bus_of_hasMeaning (hbus x hx)
  | backend =>
    obtain ⟨x, -, rfl⟩ := Option.map_eq_some_iff.mp hfront
    cases x <;> exact ⟨_, rfl⟩
  | host =>
    obtain ⟨x, -, rfl⟩ := Option.map_eq_some_iff.mp hfront
    cases x
    exact ⟨_, rfl⟩
  | internal =>
    obtain ⟨x, -, rfl⟩ := Option.map_eq_some_iff.mp hfront
    cases x <;> exact ⟨_, rfl⟩

/-- In phase OPERATING only the bus request at the front can have a step refused (R147). -/
theorem step_progress {s : State} (hop : s.block.phase = .operating)
    (hbus : ∀ x, s.inp.busQueue.head? = some x → HasMeaning x) : ∃ t, step s = .next t := by
  cases hnext : nextRequest s.inp with
  | none => exact ⟨s, by rw [step, hnext]⟩
  | some pr =>
    obtain ⟨i, hdec⟩ := decodePort_of_frontRequest hbus (nextRequest_front hnext)
    exact ⟨_, step_eq_effect hop hnext hdec⟩

/-- Settles O33: there is a step, and it does not leave the phase. -/
theorem everyRequestedOperationHasAStep : Obligations.EveryRequestedOperationHasAStep := by
  intro s hop hfetch hread hwrite
  have hbus : ∀ x, s.inp.busQueue.head? = some x → HasMeaning x
    | .read offset size, hx => hread offset size hx
    | .write offset size value, hx => hwrite offset size value hx
    | .fetch offset size, hx => hfetch offset size hx
  obtain ⟨t, hstep⟩ := step_progress hop hbus
  exact ⟨t, hstep, noStepLeavesPhaseOperating s t hop hstep⟩

/-! Bytes seen by a STATUS read (R139). -/

theorem poppedBy_eq_nil {i : Instr} (hread : ∀ n, i ≠ .rdData n) (hpop : i ≠ .popFront) (s : State) :
    poppedBy s i = [] := by
  cases i with
  | rdData n => exact absurd rfl (hread n)
  | popFront => exact absurd rfl hpop
  | rdStatus _ | rdControl _ | rdInvalid _ _ | wrData _ _ | wrStatus _ _ | wrControl _ _ | wrInvalid _ _ _ | canAccept
  | deposit _ | reset | writeData _ | raise | lower => rfl

/-- Settles O44: an operation that pops nothing leaves the queue with what it enqueues behind it. -/
theorem onlyADataReadOrAResetRemovesAByte : Obligations.OnlyADataReadOrAResetRemovesAByte := by
  intro i s t hread hpop hreset h
  obtain ⟨-, -, rfl⟩ := exec_next_iff.mp h
  have hqueue : s.block.rxFifo ++ enqueuedBy s i = (effect s i).block.rxFifo := by
    rw [effect_rxFifo s hreset, poppedBy_eq_nil hread hpop, List.nil_append]
  exact ⟨enqueuedBy s i, hqueue⟩

end Sys2Proof.Machine
